-- ==== Sys2Proof/Word.lean ====
section
/-! DEFINITION. The widths of the block: registers and elements (`XW` = `EW` = 32, 00_scope.md R9), codec
coordinates (`CW` = 16, R10) and register numbers (6 bits, 30_encoding.md R80). All values are unsigned, bit 0
least significant (R11). -/

namespace Sys2Proof

/-- A register, an element or a Morton key: 32 bits (`XW`, `EW`, `KW`; R9). -/
abbrev Word := BitVec 32

/-- A codec coordinate: 16 bits (`CW`; R9, R10). -/
abbrev Coord := BitVec 16

/-- A register number of the host port: 6 bits (R80). -/
abbrev RegNum := BitVec 6

end Sys2Proof
end

