-- ==== Sys2Proof/Syntax.lean ====
section
/-! DEFINITION. The language the block is driven in: the ten commands (30_encoding.md R88), the eighteen registers
(R81), the events at the host port and the reset input (00_scope.md R14, 70_reset_and_hazards.md R210), and the host
script notation (R91, R92). -/

namespace Sys2Proof

/-- The commands, one constructor per row of the opcode table (30_encoding.md R88). A command word holds no operand
(R89), so no constructor has an argument. -/
inductive Instr where
  | ilv | dlv
  | side | build | tmap | tinv | tile | getm | getxy
  | put
  deriving DecidableEq, Repr

/-- The ten commands, in the table's order (R88). -/
def Instr.all : List Instr := [.ilv, .dlv, .side, .build, .tmap, .tinv, .tile, .getm, .getxy, .put]

/-- Why a word written to CMD is no command (R90): a bit of the field ZERO is set, or OP is no opcode. -/
inductive DecodeError where
  | zeroFieldSet
  | unknownOpcode
  deriving DecidableEq, Repr

/-- The registers of the register map (R81). -/
inductive RegName where
  | cmd | status | cause | cap
  | a0 | a1 | a2
  | r0 | r1 | r2
  | width | height | side | tcols | trows | tcount | tlen | nelem
  deriving DecidableEq, Repr

/-- What can reach the block from outside: the two host transactions (R14, R80), a reset (R210), and an access a
platform makes by byte offset in the block's 256-byte window (R81), which is a host transaction when it is one whole
aligned word and is outside the spec otherwise (20_memory.md R64, U6; log 8). -/
inductive HostEvent where
  | hostWrite (n : RegNum) (v : Word)
  | hostRead (n : RegNum)
  | reset
  /-- `data` is the word written, or `none` for a read; `bytes` is the size of the access. -/
  | windowAccess (offset : BitVec 8) (bytes : Nat) (data : Option Word)
  deriving DecidableEq, Repr

/-- One line of a host script (R91). -/
inductive ScriptLine where
  | wr (r : RegName) (v : Word)
  | cmd (i : Instr)
  | rd (r : RegName)
  deriving DecidableEq, Repr

/-- The macros: a mnemonic followed by its arguments (R92). -/
inductive Macro where
  | ilv (x y : Word)
  | dlv (z : Word)
  | side (w h : Word)
  | build (w h n : Word)
  | tmap (x y : Word)
  | tinv (d : Word)
  | tile (t : Word)
  | getm (t m : Word)
  | getxy (x y : Word)
  | put (i v : Word)
  deriving DecidableEq, Repr

end Sys2Proof
end

