-- ==== Sys2Proof/WellFormed.lean ====
section
/-! DEFINITION. Which terms of the syntax stand for something the spec describes. -/

namespace Sys2Proof

/-- Every command is well formed: it has no operand that could be out of range (30_encoding.md R89). -/
def Instr.wf : Instr → Bool
  | .ilv | .dlv | .side | .build | .tmap | .tinv | .tile | .getm | .getxy | .put => true

/-- The access moves exactly four bytes (20_memory.md R65). -/
def wholeRegister (bytes : Nat) : Bool := bytes == 4

/-- The byte offset is a multiple of four (R64). -/
def alignedOffset (offset : BitVec 8) : Bool := offset.toNat % 4 == 0

/-- An event is well formed unless it is an access that is not one whole aligned register (R64, U6). -/
def HostEvent.wf : HostEvent → Bool
  | .hostWrite _ _ | .hostRead _ | .reset => true
  | .windowAccess offset bytes _ => wholeRegister bytes && alignedOffset offset

end Sys2Proof
end

