-- ==== Sys2Proof/Decode.lean ====
section
/-! DEFINITION. The command word (30_encoding.md R87, R88, R90), the register numbers (R81), and what host script
lines and macros stand for (R91, R92): decoders first, encoders after them. -/

namespace Sys2Proof

/-- The field OP, bits 7:0 of a command word (R87). -/
def opField (w : Word) : BitVec 8 := w.extractLsb' 0 8

/-- The field ZERO, bits 31:8 of a command word (R87). -/
def zeroField (w : Word) : BitVec 24 := w.extractLsb' 8 24

/-- The opcodes of R88. -/
def instrOfOpcode (op : BitVec 8) : Option Instr :=
  match op.toNat with
  | 0x01 => some .ilv
  | 0x02 => some .dlv
  | 0x10 => some .side
  | 0x11 => some .build
  | 0x12 => some .tmap
  | 0x13 => some .tinv
  | 0x14 => some .tile
  | 0x15 => some .getm
  | 0x16 => some .getxy
  | 0x20 => some .put
  | _ => none

/-- Decoding a command word (R84, R87, R90): total, every word that is no command rejected by name. -/
def decode (w : Word) : Except DecodeError Instr :=
  if zeroField w ≠ 0#24 then .error .zeroFieldSet
  else
    match instrOfOpcode (opField w) with
    | some i => .ok i
    | none => .error .unknownOpcode

/-- The host's question about one row of the opcode table: the command the decoder reads from the word `w` of
`nbits` bits, the bits above them 0. -/
def decodeTableWord (nbits w : Nat) : Option Instr :=
  match decode (BitVec.ofNat 32 (w % 2 ^ nbits)) with
  | .ok i => some i
  | .error _ => none

/-- The opcode of a command (R88). -/
def opcodeOf : Instr → BitVec 8
  | .ilv => 0x01#8
  | .dlv => 0x02#8
  | .side => 0x10#8
  | .build => 0x11#8
  | .tmap => 0x12#8
  | .tinv => 0x13#8
  | .tile => 0x14#8
  | .getm => 0x15#8
  | .getxy => 0x16#8
  | .put => 0x20#8

/-- The command word: ZERO = 0 above OP (R87). -/
def encode (i : Instr) : Word := 0#24 ++ opcodeOf i

/-- The register a register number names; `none` for the reserved numbers 7, 11 and 20 to 63 (R81, R85). -/
def regOfNumber (n : RegNum) : Option RegName :=
  match n.toNat with
  | 0 => some .cmd
  | 1 => some .status
  | 2 => some .cause
  | 3 => some .cap
  | 4 => some .a0
  | 5 => some .a1
  | 6 => some .a2
  | 8 => some .r0
  | 9 => some .r1
  | 10 => some .r2
  | 12 => some .width
  | 13 => some .height
  | 14 => some .side
  | 15 => some .tcols
  | 16 => some .trows
  | 17 => some .tcount
  | 18 => some .tlen
  | 19 => some .nelem
  | _ => none

/-- The number of a register (R81). -/
def numberOfReg : RegName → RegNum
  | .cmd => 0#6
  | .status => 1#6
  | .cause => 2#6
  | .cap => 3#6
  | .a0 => 4#6
  | .a1 => 5#6
  | .a2 => 6#6
  | .r0 => 8#6
  | .r1 => 9#6
  | .r2 => 10#6
  | .width => 12#6
  | .height => 13#6
  | .side => 14#6
  | .tcols => 15#6
  | .trows => 16#6
  | .tcount => 17#6
  | .tlen => 18#6
  | .nelem => 19#6

/-- The register number at a byte offset of the window: a quarter of the offset (R81). -/
def numberAtOffset (offset : BitVec 8) : RegNum := BitVec.ofNat 6 (offset.toNat / 4)

/-- The byte offset of a register number: four times the number (R81). -/
def offsetOfNumber (n : RegNum) : BitVec 8 := BitVec.ofNat 8 (4 * n.toNat)

/-- The word an event writes to CMD, if it is a write to CMD (R84), by register number or by byte offset (R81). -/
def commandWord : HostEvent → Option Word
  | .hostWrite n v => if n = 0#6 then some v else none
  | .windowAccess offset bytes (some v) =>
    if (wholeRegister bytes && alignedOffset offset) = true ∧ numberAtOffset offset = 0#6 then some v else none
  | .hostRead _ | .reset | .windowAccess _ _ none => none

/-- The transaction a host script line stands for (R91). -/
def eventOfLine : ScriptLine → HostEvent
  | .wr r v => .hostWrite (numberOfReg r) v
  | .cmd i => .hostWrite 0#6 (encode i)
  | .rd r => .hostRead (numberOfReg r)

/-- The expansion of a macro: its argument registers in order, then the command (R92). -/
def expandMacro : Macro → List ScriptLine
  | .ilv x y => [.wr .a0 x, .wr .a1 y, .cmd .ilv]
  | .dlv z => [.wr .a0 z, .cmd .dlv]
  | .side w h => [.wr .a0 w, .wr .a1 h, .cmd .side]
  | .build w h n => [.wr .a0 w, .wr .a1 h, .wr .a2 n, .cmd .build]
  | .tmap x y => [.wr .a0 x, .wr .a1 y, .cmd .tmap]
  | .tinv d => [.wr .a0 d, .cmd .tinv]
  | .tile t => [.wr .a0 t, .cmd .tile]
  | .getm t m => [.wr .a0 t, .wr .a1 m, .cmd .getm]
  | .getxy x y => [.wr .a0 x, .wr .a1 y, .cmd .getxy]
  | .put i v => [.wr .a0 i, .wr .a1 v, .cmd .put]

/-- The transactions a macro stands for (R92). -/
def eventsOfMacro (m : Macro) : List HostEvent := (expandMacro m).map eventOfLine

/-- The command a macro ends with (R92). -/
def instrOfMacro : Macro → Instr
  | .ilv _ _ => .ilv
  | .dlv _ => .dlv
  | .side _ _ => .side
  | .build _ _ _ => .build
  | .tmap _ _ => .tmap
  | .tinv _ => .tinv
  | .tile _ => .tile
  | .getm _ _ => .getm
  | .getxy _ _ => .getxy
  | .put _ _ => .put

end Sys2Proof
end

