-- ==== Sys2Proof/Config.lean ====
section
/-! DEFINITION. What the spec leaves to an implementation or leaves open: the parameter values of 00_scope.md R9
and the free contents of the memories after a reset (70_reset_and_hazards.md R211, 93_implementation_defined.md U2). -/

namespace Sys2Proof.Config

/-- `CW`, the coordinate width in bits (R9). -/
def coordBits : Nat := 16

/-- `SIDE_MAX`, the largest tile side (R9, 41_tile_rearranger.md R122). -/
def sideMax : Nat := 2 ^ 16

/-- DESIGN CHOICE (log 3): the value `State.reset` gives the OPEN parameter `CAP`, the one the test vectors of
95_test_vectors.md section 5 use. Every statement quantifies over the field `cap` instead. -/
def resetCap : Word := 1024#32

/-- FREE VALUE (U2, log 4): what element `index` of SRC holds after reset number `epoch` until it is written. -/
opaque freeSrc (epoch index : Nat) : Word

/-- FREE VALUE (U2, log 4): what element `index` of DST holds after reset number `epoch` until it is written. -/
opaque freeDst (epoch index : Nat) : Word

end Sys2Proof.Config
end

