-- ==== Sys2Proof/Machine/State.lean ====
section
/-! DEFINITION. The state of the block (10_state.md R20 to R34), the model's own fields for what stands outside it,
the outcomes of a step, and the state after reset. -/

namespace Sys2Proof.Machine

/-- An element memory: the elements written since the last reset, as (index, element) pairs, indices strictly rising
(20_memory.md R61, R62; log 5). An index not listed has not been written since the last reset: it reads as no value
of the list, and the block then reads the free content of that element (log 4). -/
abbrev Memory := List (Nat × Word)

/-- The canonical form of a memory: indices strictly rising, so that equal memories are equal lists. -/
abbrev Memory.wf (m : Memory) : Prop := m.Pairwise (fun p q => p.1 < q.1)

/-- The two element memories (R31, R32). -/
inductive MemoryName where
  | src
  | dst
  deriving DecidableEq, Repr

/-- The result codes of STATUS.RC (R24). -/
inductive ResultCode where
  | ok
  | dimensionMismatch
  | fault
  deriving DecidableEq, Repr

/-- The causes of a fault of the block (R26; 60_exceptions.md R187 to R191). -/
inductive Cause where
  | domainViolation
  | zeroDimension
  | illegalCommand
  | noLayout
  | badIndex
  deriving DecidableEq, Repr

/-- The state: the block's registers and memories (R20), then the model's own fields. -/
structure State where
  /-- CMD (R23). -/
  cmd : Word
  /-- STATUS (R24); its fields are read and written through Machine/Flags.lean. -/
  status : Word
  /-- CAUSE (R26). -/
  cause : Word
  /-- A0, A1, A2: the argument registers (R21). -/
  a0 : Word
  a1 : Word
  a2 : Word
  /-- R0, R1, R2: the result registers (R21). -/
  r0 : Word
  r1 : Word
  r2 : Word
  /-- The layout registers (R28). -/
  width : Word
  height : Word
  side : Word
  tcols : Word
  trows : Word
  tcount : Word
  tlen : Word
  nelem : Word
  /-- SRC (R31). -/
  src : Memory
  /-- DST (R32). -/
  dst : Memory
  /-- The model's own: the constant `CAP` (R9, R27; log 3). -/
  cap : Word
  /-- The model's own: how many resets there have been since power-on (R211; log 4). -/
  epoch : Nat
  /-- The model's own: what the host and the reset input do next, oldest first (R14, R22; log 1). -/
  inbox : List HostEvent
  /-- The model's own: what HostRead has returned to the host, oldest first (R82; log 2). -/
  replies : List Word
  deriving DecidableEq, Repr

/-- What stops a step. The block's own faults are no stop: they are next states (60_exceptions.md R186). -/
inductive Fault where
  /-- A read of an element at an index of CAP or more, which the spec gives no effect (20_memory.md R62: no rule does
  this). Raised by GETM and GETXY, only in states no run from reset reaches (log 6). Safe. -/
  | noSuchElement (memory : MemoryName)
  deriving DecidableEq, Repr

/-- What a step does not accept. -/
inductive Refusal where
  /-- Raised by an arm of `exec` whose instruction has no meaning yet; no arm does. Safe. -/
  | notModelled (mnemonic : String)
  /-- A host access that is not one whole aligned 32-bit register: outside the spec (20_memory.md R64, U6; log 8).
  Raised by the port, never by a command. Safe. -/
  | partialAccess
  deriving DecidableEq, Repr

/-- What a step or a command answers. -/
abbrev Result := Host.Outcome State Fault Refusal

/-- The state right after power-on, which counts as a reset (70_reset_and_hazards.md R210): every register 0 (R34),
no element written (R211), no host event pending. -/
def State.reset : State where
  cmd := 0#32
  status := 0#32
  cause := 0#32
  a0 := 0#32
  a1 := 0#32
  a2 := 0#32
  r0 := 0#32
  r1 := 0#32
  r2 := 0#32
  width := 0#32
  height := 0#32
  side := 0#32
  tcols := 0#32
  trows := 0#32
  tcount := 0#32
  tlen := 0#32
  nelem := 0#32
  src := []
  dst := []
  cap := Config.resetCap
  epoch := 0
  inbox := []
  replies := []

end Sys2Proof.Machine
end

