-- ==== Sys2Proof/Machine/Flags.lean ====
section
/-! DEFINITION. The fields of STATUS (10_state.md R24) and the codes of STATUS.RC and CAUSE (R24, R26): every flag the
block computes. -/

namespace Sys2Proof.Machine

/-- STATUS.FAULT, bit 0. -/
def statusFault (w : Word) : Bool := w.getLsbD 0

/-- STATUS.VALID, bit 1. -/
def statusValid (w : Word) : Bool := w.getLsbD 1

/-- STATUS.RC, bits 7:4. -/
def statusRc (w : Word) : BitVec 4 := w.extractLsb' 4 4

/-- The bits of STATUS that are not reserved: 0, 1 and 7:4. -/
def statusMask : Word := 0x000000F3#32

/-- The bits of CAUSE that are not reserved: 3:0 (R26). -/
def causeMask : Word := 0x0000000F#32

/-- STATUS with the field RC replaced. -/
def setRc (rc : BitVec 4) (w : Word) : Word := (w &&& ~~~0x000000F0#32) ||| (rc.setWidth 32 <<< 4)

/-- STATUS with FAULT set. -/
def setFault (w : Word) : Word := w ||| 0x00000001#32

/-- STATUS with VALID set. -/
def setValid (w : Word) : Word := w ||| 0x00000002#32

/-- The codes of STATUS.RC (R24). -/
def rcCode : ResultCode → BitVec 4
  | .ok => 0#4
  | .dimensionMismatch => 1#4
  | .fault => 2#4

/-- The codes of CAUSE (R26). -/
def causeCode : Cause → Word
  | .domainViolation => 1#32
  | .zeroDimension => 2#32
  | .illegalCommand => 3#32
  | .noLayout => 4#32
  | .badIndex => 5#32

/-- `STATUS.FAULT = 1`. -/
def State.faulted (s : State) : Bool := statusFault s.status

/-- `STATUS.VALID = 1`. -/
def State.valid (s : State) : Bool := statusValid s.status

/-- `STATUS.RC`. -/
def State.rc (s : State) : BitVec 4 := statusRc s.status

/-- The state with STATUS.RC replaced. -/
def State.withRc (s : State) (rc : ResultCode) : State := { s with status := setRc (rcCode rc) s.status }

/-- Fault entry (60_exceptions.md R186): FAULT <- 1, RC <- 2, CAUSE <- the code, nothing else. -/
def State.enterFault (s : State) (c : Cause) : State :=
  { s with status := setRc (rcCode .fault) (setFault s.status), cause := causeCode c }

end Sys2Proof.Machine
end

