-- ==== Sys2Proof/Machine/Ops.lean ====
section
/-! DEFINITION. The operations the meanings share: the element memories (20_memory.md R62), the ways a command ends
(60_exceptions.md R180, R182, R183, R186), reset (70_reset_and_hazards.md R210), and the registers as the host sees
them (30_encoding.md R82, R83). -/

namespace Sys2Proof.Machine

/-- The element last written at an index, if one has been since the last reset (R62). -/
def Memory.read : Memory → Nat → Option Word
  | [], _ => none
  | (j, u) :: rest, i => if i = j then some u else Memory.read rest i

/-- `MemWrite` (R62): replaces the element at one index and no other, keeping the indices strictly rising. -/
def Memory.write : Memory → Nat → Word → Memory
  | [], i, v => [(i, v)]
  | (j, u) :: rest, i, v =>
    if i < j then (i, v) :: (j, u) :: rest
    else if i = j then (i, v) :: rest
    else (j, u) :: Memory.write rest i v

/-- `MemRead(SRC, i)` for i < CAP (R62): the element last written, or the element's unspecified content after the last
reset (R211), a free value (log 4). -/
def State.srcElem (s : State) (i : Nat) : Word := (s.src.read i).getD (Config.freeSrc s.epoch i)

/-- `MemRead(DST, i)` for i < CAP, as `State.srcElem`. -/
def State.dstElem (s : State) (i : Nat) : Word := (s.dst.read i).getD (Config.freeDst s.epoch i)

/-- `MemRead(DST, i)` as the commands make it: an index of CAP or more names no element (R62; log 6). -/
def loadDst (s : State) (i : Nat) (k : Word → Result) : Result :=
  if i < s.cap.toNat then k (s.dstElem i) else .fault (.noSuchElement .dst)

/-- A command that succeeds (R183): RC <- 0 together with its other writes, which `s` already holds. -/
def succeed (s : State) : Result := .next (s.withRc .ok)

/-- `fail DimensionMismatch` (R182): RC <- 1 and nothing else. -/
def failDimensionMismatch (s : State) : Result := .next (s.withRc .dimensionMismatch)

/-- `raise Fault(c)` (R186): the block's fault entry. There is no handler: the next state is the faulted block. -/
def raiseFault (c : Cause) (s : State) : Result := .next (s.enterFault c)

/-- A reset (70_reset_and_hazards.md R210, R211), the only return from a fault (60_exceptions.md R195): every register
to its reset value (10_state.md R34), the memories unspecified. The parameter `CAP` and what stands outside the block
stay. -/
def applyReset (s : State) : State :=
  { State.reset with cap := s.cap, epoch := s.epoch + 1, inbox := s.inbox, replies := s.replies }

/-- The value of a register (R82). The reserved bits of STATUS and CAUSE read as 0 (10_state.md R24, R26; log 12). -/
def regValue (s : State) : RegName → Word
  | .cmd => s.cmd
  | .status => s.status &&& statusMask
  | .cause => s.cause &&& causeMask
  | .cap => s.cap
  | .a0 => s.a0
  | .a1 => s.a1
  | .a2 => s.a2
  | .r0 => s.r0
  | .r1 => s.r1
  | .r2 => s.r2
  | .width => s.width
  | .height => s.height
  | .side => s.side
  | .tcols => s.tcols
  | .trows => s.trows
  | .tcount => s.tcount
  | .tlen => s.tlen
  | .nelem => s.nelem

/-- What `HostRead(n)` returns (R82): 0 for a reserved number (R85). -/
def portValue (s : State) (n : RegNum) : Word :=
  match regOfNumber n with
  | some r => regValue s r
  | none => 0#32

/-- A host write to a register other than CMD while FAULT = 0 (R83): A0, A1, A2 take the value, every other register
and every reserved number ignores it. A write to CMD does not come here: Machine/Port.lean runs it. -/
def portStore (s : State) (n : RegNum) (v : Word) : State :=
  match regOfNumber n with
  | some .a0 => { s with a0 := v }
  | some .a1 => { s with a1 := v }
  | some .a2 => { s with a2 := v }
  | some .cmd | some .status | some .cause | some .cap | some .r0 | some .r1 | some .r2 | some .width | some .height
  | some .side | some .tcols | some .trows | some .tcount | some .tlen | some .nelem | none => s

end Sys2Proof.Machine
end

