-- ==== Sys2Proof/Machine/Operands.lean ====
section
/-! DEFINITION. How a command finds its operands (30_encoding.md R89): each of A0, A1, A2 as a whole unsigned 32-bit
value, neither extended, scaled nor shifted; the checks that say whether such a value is an operand of its kind (a
coordinate, a grid position, a tile, an element of a tile, an offset, a source index); and results narrower or wider
than a register. -/

namespace Sys2Proof.Machine

/-- A0 as a number. -/
def State.arg0 (s : State) : Nat := s.a0.toNat

/-- A1 as a number. -/
def State.arg1 (s : State) : Nat := s.a1.toNat

/-- A2 as a number. -/
def State.arg2 (s : State) : Nat := s.a2.toNat

/-- The codec's domain: a value below 2^16, none of bits 31:16 set (40_bit_codec.md R105). -/
def inDomain (v : Word) : Bool := decide (v.toNat < 2 ^ Config.coordBits)

/-- The coordinate in an argument register, `v[15:0]` (R105). -/
def coordOf (v : Word) : Coord := v.extractLsb' 0 16

/-- A narrower result in a whole register, zero-extended (R89). -/
def wordOfCoord (c : Coord) : Word := c.setWidth 32

/-- A number in a register. Every number a command writes is below 2^32 (41_tile_rearranger.md R140; log 14). -/
def wordOf (n : Nat) : Word := BitVec.ofNat 32 n

/-- (A0, A1) is a position of the grid (R136, 42_layout_access.md R167). -/
def State.argsInGrid (s : State) : Bool :=
  decide (s.arg0 < s.width.toNat) && decide (s.arg1 < s.height.toNat)

/-- A0 is the index of a tile (R163). -/
def State.argIsTile (s : State) : Bool := decide (s.arg0 < s.tcount.toNat)

/-- A1 is a local Morton index of a tile (R165). -/
def State.argIsTileElem (s : State) : Bool := decide (s.arg1 < s.tlen.toNat)

/-- A0 is a destination offset of the layout (R138). -/
def State.argIsOffset (s : State) : Bool := decide (s.arg0 < s.nelem.toNat)

/-- A0 is the index of a source element (R175). -/
def State.argIsSrcIndex (s : State) : Bool := decide (s.arg0 < s.cap.toNat)

end Sys2Proof.Machine
end

