-- ==== Sys2Proof/Machine/Codec.lean ====
section
/-! DEFINITION. The bit codec (40_bit_codec.md): the functions `interleave` and `deinterleave` from their bit-level
contract, the shift-and-mask sequences that compute them, and the commands ILV and DLV. -/

namespace Sys2Proof.Machine

/-- The sum over the low `n` bits of `v` of `v[i] * 4^i` (R100). -/
def spreadBits : Nat → Nat → Nat
  | 0, _ => 0
  | n + 1, v => v % 2 + 4 * spreadBits n (v / 2)

/-- The number whose bit i is bit 2i of `z`, for i below `n` (R101). -/
def compressBits : Nat → Nat → Nat
  | 0, _ => 0
  | n + 1, z => z % 2 + 2 * compressBits n (z / 4)

/-- `interleave` (R100), the contract (log 13): the sum over i of `x[i] * 4^i + y[i] * 2 * 4^i`. -/
def interleave (x y : Coord) : Word :=
  wordOf (spreadBits 16 x.toNat + 2 * spreadBits 16 y.toNat)

/-- `deinterleave` (R101), the contract: even-position bits into x, odd-position bits into y. -/
def deinterleave (z : Word) : Coord × Coord :=
  (BitVec.ofNat 16 (compressBits 16 z.toNat), BitVec.ofNat 16 (compressBits 16 (z.toNat / 2)))

/-- One step of the spread sequence (R102). -/
def spreadStep (k : Nat) (mask s : Word) : Word := (s ||| (s <<< k)) &&& mask

/-- `spread16` (R102). -/
def spread16 (v : Coord) : Word :=
  let s0 : Word := v.setWidth 32
  let s1 := spreadStep 8 0x00FF00FF#32 s0
  let s2 := spreadStep 4 0x0F0F0F0F#32 s1
  let s3 := spreadStep 2 0x33333333#32 s2
  spreadStep 1 0x55555555#32 s3

/-- One step of the compress sequence (R104). -/
def compressStep (k : Nat) (mask c : Word) : Word := (c ||| (c >>> k)) &&& mask

/-- `compress32` (R104), with the fifth mask that truncates to the result (90_conflicts.md C5). -/
def compress32 (w : Word) : Coord :=
  let c0 := w &&& 0x55555555#32
  let c1 := compressStep 1 0x33333333#32 c0
  let c2 := compressStep 2 0x0F0F0F0F#32 c1
  let c3 := compressStep 4 0x00FF00FF#32 c2
  let c4 := compressStep 8 0x0000FFFF#32 c3
  c4.extractLsb' 0 16

/-- ILV (R105): a fault if either argument is outside the codec's domain, never a truncation (90_conflicts.md C1). -/
def execIlv (s : State) : Result :=
  if !(inDomain s.a0 && inDomain s.a1) then raiseFault .domainViolation s
  else succeed { s with r0 := interleave (coordOf s.a0) (coordOf s.a1) }

/-- DLV (R106): defined for every key. -/
def execDlv (s : State) : Result :=
  let xy := deinterleave s.a0
  succeed { s with r0 := wordOfCoord xy.1, r1 := wordOfCoord xy.2 }

end Sys2Proof.Machine
end

