-- ==== Sys2Proof/Machine/Tile.lean ====
section
/-! DEFINITION. The tile rearranger (41_tile_rearranger.md): the side derivation, the rearrangement pass, the forward
and inverse address maps, and the commands SIDE, BUILD, TMAP and TINV. Numbers are naturals: no value of a valid
layout reaches 2^32 (R140). -/

namespace Sys2Proof.Machine

/-- The loop of R122: halve until `side` divides both dimensions, at most `fuel` times. -/
def halveUntilDivides (w h : Nat) : Nat → Nat → Nat
  | 0, side => side
  | fuel + 1, side =>
    if w % side ≠ 0 ∨ h % side ≠ 0 then halveUntilDivides w h fuel (side / 2) else side

/-- `derive_tile_side` for non-zero dimensions (R122): from the highest set bit of the smaller dimension, bounded by
2^16; 16 halvings suffice (R123; log 15). The zero dimensions of R121 are the callers' first test. -/
def tileSide (w h : Nat) : Nat :=
  halveUntilDivides w h 16 (min (2 ^ (min w h).log2) Config.sideMax)

/-- The Morton index of tile-local coordinates, through the bit codec (R128, R135). -/
def mortonIndex (lx ly : Nat) : Nat := (interleave (BitVec.ofNat 16 lx) (BitVec.ofNat 16 ly)).toNat

/-- The destination offset of a grid position in the pass of BUILD (R128). -/
def destOffset (w side x y : Nat) : Nat :=
  let tc := x / side
  let tr := y / side
  let m := mortonIndex (x % side) (y % side)
  tr * (w / side) * side * side + tc * side * side + m

/-- The moves of one row of the grid, x from 0 upwards (R128; the source index is row-major, R176). -/
def rearrangeRow (s : State) (w side y : Nat) : Nat → Memory → Memory
  | 0, dst => dst
  | x + 1, dst => (rearrangeRow s w side y x dst).write (destOffset w side x y) (s.srcElem (y * w + x))

/-- The rearrangement pass (R128): the rows from 0 upwards. -/
def rearrange (s : State) (w side : Nat) : Nat → Memory → Memory
  | 0, dst => dst
  | y + 1, dst => rearrangeRow s w side y w (rearrange s w side y dst)

/-- A position's place in the layout: destination offset, tile index, local Morton index (R135). -/
structure Place where
  d : Nat
  t : Nat
  m : Nat
  deriving DecidableEq, Repr

/-- `tmap` (R135), for the layout registers SIDE, TCOLS and TLEN. -/
def tmap (side tcols tlen x y : Nat) : Place :=
  let tc := x / side
  let tr := y / side
  let m := mortonIndex (x % side) (y % side)
  let t := tr * tcols + tc
  { d := t * tlen + m, t := t, m := m }

/-- An offset's grid position and tile (R137). -/
structure Position where
  x : Nat
  y : Nat
  t : Nat
  deriving DecidableEq, Repr

/-- `tinv` (R137), for the layout registers SIDE, TCOLS and TLEN. -/
def tinv (side tcols tlen d : Nat) : Position :=
  let t := d / tlen
  let m := d % tlen
  let l := deinterleave (wordOf m)
  let tc := t % tcols
  let tr := t / tcols
  { x := tc * side + l.1.toNat, y := tr * side + l.2.toNat, t := t }

/-- `tmap` of the layout the block holds. -/
def State.tmap (s : State) (x y : Nat) : Place :=
  Sys2Proof.Machine.tmap s.side.toNat s.tcols.toNat s.tlen.toNat x y

/-- `tinv` of the layout the block holds. -/
def State.tinv (s : State) (d : Nat) : Position :=
  Sys2Proof.Machine.tinv s.side.toNat s.tcols.toNat s.tlen.toNat d

/-- SIDE (R125). -/
def execSide (s : State) : Result :=
  if s.arg0 = 0 ∨ s.arg1 = 0 then raiseFault .zeroDimension s
  else succeed { s with r0 := wordOf (tileSide s.arg0 s.arg1) }

/-- What a successful BUILD writes (R126, R130): the pass over DST, the eight layout registers and VALID, together. -/
def State.built (s : State) : State :=
  let w := s.arg0
  let h := s.arg1
  let side := tileSide w h
  { s with
    dst := rearrange s w side h s.dst
    width := wordOf w
    height := wordOf h
    side := wordOf side
    tcols := wordOf (w / side)
    trows := wordOf (h / side)
    tcount := wordOf ((w / side) * (h / side))
    tlen := wordOf (side * side)
    nelem := wordOf s.arg2
    status := setValid s.status }

/-- BUILD (R126): its three tests in order (R127), all before anything is written (R131). The product of the length
test is exact. The pass stays below CAP, since its offsets stay below the product (R129). -/
def execBuild (s : State) : Result :=
  if s.arg2 ≠ s.arg0 * s.arg1 then failDimensionMismatch s
  else if s.arg0 = 0 ∨ s.arg1 = 0 then raiseFault .zeroDimension s
  else if s.cap.toNat < s.arg2 then raiseFault .badIndex s
  else succeed s.built

/-- TMAP (R136). -/
def execTmap (s : State) : Result :=
  if !s.valid then raiseFault .noLayout s
  else if !s.argsInGrid then raiseFault .badIndex s
  else
    let p := s.tmap s.arg0 s.arg1
    succeed { s with r0 := wordOf p.d, r1 := wordOf p.t, r2 := wordOf p.m }

/-- TINV (R138). -/
def execTinv (s : State) : Result :=
  if !s.valid then raiseFault .noLayout s
  else if !s.argIsOffset then raiseFault .badIndex s
  else
    let p := s.tinv s.arg0
    succeed { s with r0 := wordOf p.x, r1 := wordOf p.y, r2 := wordOf p.t }

end Sys2Proof.Machine
end

