-- ==== Sys2Proof/Machine/Layout.lean ====
section
/-! DEFINITION. Layout access and source load (42_layout_access.md): the commands TILE, GETM, GETXY and PUT. -/

namespace Sys2Proof.Machine

/-- TILE (R163): offset, tile column and tile row of a tile (R161, R162). -/
def execTile (s : State) : Result :=
  if !s.valid then raiseFault .noLayout s
  else if !s.argIsTile then raiseFault .badIndex s
  else
    succeed { s with
      r0 := wordOf (s.arg0 * s.tlen.toNat)
      r1 := wordOf (s.arg0 % s.tcols.toNat)
      r2 := wordOf (s.arg0 / s.tcols.toNat) }

/-- GETM (R165): the element of a tile at a local Morton index. -/
def execGetm (s : State) : Result :=
  if !s.valid then raiseFault .noLayout s
  else if !(s.argIsTile && s.argIsTileElem) then raiseFault .badIndex s
  else loadDst s (s.arg0 * s.tlen.toNat + s.arg1) fun v => succeed { s with r0 := v }

/-- GETXY (R167): the element at a grid position. -/
def execGetxy (s : State) : Result :=
  if !s.valid then raiseFault .noLayout s
  else if !s.argsInGrid then raiseFault .badIndex s
  else loadDst s (s.tmap s.arg0 s.arg1).d fun v => succeed { s with r0 := v }

/-- PUT (R175): the element of SRC at index A0 becomes A1. -/
def execPut (s : State) : Result :=
  if !s.argIsSrcIndex then raiseFault .badIndex s
  else succeed { s with src := s.src.write s.arg0 s.a1 }

end Sys2Proof.Machine
end

