-- ==== Sys2Proof/Machine/Dispatch.lean ====
section
/-! DEFINITION. One arm per command (30_encoding.md R88). -/

namespace Sys2Proof.Machine

def exec (i : Instr) (s : State) : Host.Outcome State Fault Refusal :=
  match i with
  | .ilv => Sys2Proof.Machine.execIlv s
  | .dlv => Sys2Proof.Machine.execDlv s
  | .side => Sys2Proof.Machine.execSide s
  | .build => Sys2Proof.Machine.execBuild s
  | .tmap => Sys2Proof.Machine.execTmap s
  | .tinv => Sys2Proof.Machine.execTinv s
  | .tile => Sys2Proof.Machine.execTile s
  | .getm => Sys2Proof.Machine.execGetm s
  | .getxy => Sys2Proof.Machine.execGetxy s
  | .put => Sys2Proof.Machine.execPut s

end Sys2Proof.Machine
end

