-- ==== Sys2Proof/Machine/Port.lean ====
section
/-! DEFINITION. The host port and the reset input (30_encoding.md section 1, 70_reset_and_hazards.md R210): what one
event does to the block. -/

namespace Sys2Proof.Machine

/-- `HostWrite(0, w)` while FAULT = 0 (R84): CMD <- w, then the command to its end; an illegal word faults (R90). -/
def runCommand (w : Word) (s : State) : Result :=
  let s1 := { s with cmd := w }
  match decode w with
  | .error _ => raiseFault .illegalCommand s1
  | .ok i => exec i s1

/-- `HostWrite(n, v)` (R83, R84, R86): ignored while FAULT = 1. This test is the port's; no command repeats it
(log 11). -/
def hostWrite (n : RegNum) (v : Word) (s : State) : Result :=
  if s.faulted then .next s
  else if n = 0#6 then runCommand v s
  else .next (portStore s n v)

/-- `HostRead(n)` (R82): the answer goes to the host, the block does not change. -/
def hostRead (n : RegNum) (s : State) : Result := .next { s with replies := s.replies ++ [portValue s n] }

/-- What one event does. A platform's access by byte offset is the register's transaction when it is one whole aligned
word, and is refused otherwise (20_memory.md R64, U6). -/
def serveEvent (e : HostEvent) (s : State) : Result :=
  match e with
  | .hostWrite n v => hostWrite n v s
  | .hostRead n => hostRead n s
  | .reset => .next (applyReset s)
  | .windowAccess offset bytes data =>
    if !(wholeRegister bytes && alignedOffset offset) then .refused .partialAccess
    else
      match data with
      | some v => hostWrite (numberAtOffset offset) v s
      | none => hostRead (numberAtOffset offset) s

/-- The next event, in the order the host makes them (20_memory.md R68); with none pending the block is idle
(60_exceptions.md R199; log 7). -/
def serveNext (s : State) : Result :=
  match s.inbox with
  | [] => .next s
  | e :: rest => serveEvent e { s with inbox := rest }

end Sys2Proof.Machine
end

