-- ==== Sys2Proof/Machine/Step.lean ====
section
/-! DEFINITION. One step of the machine: one event at the host port or the reset input, with the command it may start,
to its end (30_encoding.md R84, 20_memory.md R65, R68). -/

namespace Sys2Proof.Machine

def step (s : State) : Host.Outcome State Fault Refusal := serveNext s

/-- The state in which the host is about to write the word `w` of `nbits` bits to CMD: the one way a command reaches
the block (10_state.md R22, R23; log 1). -/
def State.withFetchWord (s : State) (nbits w : Nat) : State :=
  { s with inbox := .hostWrite 0#6 (BitVec.ofNat 32 (w % 2 ^ nbits)) :: s.inbox }

end Sys2Proof.Machine
end

