-- ==== Sys2Proof/Safety.lean ====
section
/-! DEFINITION. What is true of the block at every moment between transactions (10_state.md R24, R25, R26, R29, R30,
R32; 20_memory.md R60): the invariant in whose terms claims about reachable states are made. -/

namespace Sys2Proof.Machine

/-- The layout registers describe one layout that fits the block (R29, numeric part). -/
structure LayoutOk (s : State) : Prop where
  width_pos : 1 ≤ s.width.toNat
  height_pos : 1 ≤ s.height.toNat
  side_eq : s.side.toNat = tileSide s.width.toNat s.height.toNat
  tcols_eq : s.tcols.toNat = s.width.toNat / s.side.toNat
  trows_eq : s.trows.toNat = s.height.toNat / s.side.toNat
  tcount_eq : s.tcount.toNat = s.tcols.toNat * s.trows.toNat
  tlen_eq : s.tlen.toNat = s.side.toNat * s.side.toNat
  nelem_eq : s.nelem.toNat = s.width.toNat * s.height.toNat
  nelem_le_cap : s.nelem.toNat ≤ s.cap.toNat

/-- All eight layout registers hold 0 (R30). -/
structure LayoutZero (s : State) : Prop where
  width_zero : s.width = 0#32
  height_zero : s.height = 0#32
  side_zero : s.side = 0#32
  tcols_zero : s.tcols = 0#32
  trows_zero : s.trows = 0#32
  tcount_zero : s.tcount = 0#32
  tlen_zero : s.tlen = 0#32
  nelem_zero : s.nelem = 0#32

/-- A memory in canonical form whose every index is below `cap` (20_memory.md R60). -/
structure MemoryOk (cap : Nat) (m : Memory) : Prop where
  wf : Memory.wf m
  below : ∀ p ∈ m, p.1 < cap

/-- The invariant of the block. -/
structure Inv (s : State) : Prop where
  cap_pos : 1 ≤ s.cap.toNat
  status_reserved : s.status &&& ~~~statusMask = 0#32
  rc_range : s.rc.toNat ≤ 2
  cause_range : s.cause.toNat ≤ 5
  fault_iff_rc : s.faulted = true ↔ s.rc = 2#4
  fault_iff_cause : s.faulted = true ↔ s.cause ≠ 0#32
  layout_ok : s.valid = true → LayoutOk s
  layout_zero : s.valid = false → LayoutZero s
  src_ok : MemoryOk s.cap.toNat s.src
  dst_ok : MemoryOk s.cap.toNat s.dst
  /-- Every element a command may read has been written by a BUILD (R32). -/
  dst_filled : s.valid = true → ∀ d, d < s.nelem.toNat → (s.dst.read d).isSome = true

/-- A safe state: the invariant holds and the next event, if any, is one the spec describes. -/
structure Safe (s : State) : Prop where
  inv : Inv s
  event : ∀ e ∈ s.inbox.head?, e.wf = true

end Sys2Proof.Machine
end

