-- ==== Sys2Proof/Certificates/Slice0/Obligations.lean ====
section
/-! DEFINITION. The statements for the provers, from the numbered rules of spec/. `setRc` and `setFault` in them are
fixed bit by bit by `StatusFieldUpdatesTouchOnlyTheirBits`, `interleave` and `deinterleave` by
`InterleaveMeetsItsBitContract` and `DeinterleaveMeetsItsBitContract`. "A valid layout" is `LayoutOk`, which
`StepKeepsTheInvariant` shows to hold whenever VALID = 1. A statement about `exec` at every state covers faulted ones,
where it says what the command's rule alone says: the port starts no command there (R86, log 11). -/

namespace Sys2Proof.Machine

/-- The exponent of the tile side in closed form (R124): `min(ctz(w), ctz(h), 16)`. -/
def sideExponent (w h : Nat) : Nat := min (min (padicValNat 2 w) (padicValNat 2 h)) 16

/-- The state after fault entry with a cause code (R186), as the rules list its effects. -/
def State.afterFault (s : State) (code : Word) : State :=
  { s with status := setRc 2#4 (setFault s.status), cause := code }

/-- The state after a success whose other writes are already made (R183). -/
def State.afterSuccess (s : State) : State := { s with status := setRc 0#4 s.status }

/-- Two states hold the same layout: the eight layout registers, VALID and DST (with what its unwritten elements hold). -/
structure SameLayout (s t : State) : Prop where
  width : t.width = s.width
  height : t.height = s.height
  side : t.side = s.side
  tcols : t.tcols = s.tcols
  trows : t.trows = s.trows
  tcount : t.tcount = s.tcount
  tlen : t.tlen = s.tlen
  nelem : t.nelem = s.nelem
  valid : t.valid = s.valid
  dst : t.dst = s.dst
  epoch : t.epoch = s.epoch
  cap : t.cap = s.cap

/-- One step that is no reset and no successful BUILD. -/
def StepWithoutRebuild (s t : State) : Prop :=
  step s = .next t ∧ s.inbox.head? ≠ some .reset ∧
    ¬ (s.faulted = false ∧ s.inbox.head?.bind commandWord = some 0x00000011#32 ∧ t.rc = 0#4)

/-- Running the moves of BUILD's pass in the order of a list of source indices (20_memory.md R69). -/
def movesInOrder (s : State) (w side : Nat) (order : List Nat) (dst : Memory) : Memory :=
  order.foldl (fun m i => m.write (destOffset w side (i % w) (i / w)) (s.srcElem i)) dst

/-- The failure table of R193, its fault rows. -/
def faultTable : List (Instr × Cause) :=
  [(.ilv, .domainViolation), (.side, .zeroDimension), (.build, .zeroDimension),
   (.tmap, .noLayout), (.tinv, .noLayout), (.tile, .noLayout), (.getm, .noLayout), (.getxy, .noLayout),
   (.put, .badIndex), (.build, .badIndex), (.tmap, .badIndex), (.tinv, .badIndex), (.tile, .badIndex),
   (.getm, .badIndex), (.getxy, .badIndex)]

/-- The register number an event reads, if it is a read (R82), by register number or by byte offset (R81). -/
def readNumber : HostEvent → Option RegNum
  | .hostRead n => some n
  | .windowAccess offset _ none => some (numberAtOffset offset)
  | .hostWrite _ _ | .reset | .windowAccess _ _ (some _) => none

/-- The ten command words of R88. -/
def commandWords : List Word :=
  [0x00000001#32, 0x00000002#32, 0x00000010#32, 0x00000011#32, 0x00000012#32, 0x00000013#32, 0x00000014#32,
   0x00000015#32, 0x00000016#32, 0x00000020#32]

/-- The state once the argument registers of a macro have been written (R92). -/
def withMacroArgs (s : State) : Macro → State
  | .ilv x y => { s with a0 := x, a1 := y }
  | .dlv z => { s with a0 := z }
  | .side w h => { s with a0 := w, a1 := h }
  | .build w h n => { s with a0 := w, a1 := h, a2 := n }
  | .tmap x y => { s with a0 := x, a1 := y }
  | .tinv d => { s with a0 := d }
  | .tile t => { s with a0 := t }
  | .getm t m => { s with a0 := t, a1 := m }
  | .getxy x y => { s with a0 := x, a1 := y }
  | .put i v => { s with a0 := i, a1 := v }

/-- A change of the next state an outcome holds. -/
def mapNext (f : State → State) : Result → Result
  | .next s => .next (f s)
  | .fault r => .fault r
  | .refused r => .refused r

end Sys2Proof.Machine

open Sys2Proof Sys2Proof.Machine

/-! ## Encoding and the host port -/

/-- R88: each command word of the table decodes to its command. -/
def Obligations.TableWordsDecodeToTheirCommands : Prop :=
  decode 0x00000001#32 = .ok .ilv ∧ decode 0x00000002#32 = .ok .dlv ∧ decode 0x00000010#32 = .ok .side ∧
  decode 0x00000011#32 = .ok .build ∧ decode 0x00000012#32 = .ok .tmap ∧ decode 0x00000013#32 = .ok .tinv ∧
  decode 0x00000014#32 = .ok .tile ∧ decode 0x00000015#32 = .ok .getm ∧ decode 0x00000016#32 = .ok .getxy ∧
  decode 0x00000020#32 = .ok .put

/-- Decoding and encoding agree over all 2^32 words and all ten commands. -/
def Obligations.DecodeIsTheInverseOfEncode : Prop :=
  ∀ (w : Word) (i : Instr), decode w = .ok i ↔ w = encode i

/-- R90, R189: a word is legal if and only if it is one of the ten; every other word, written to CMD of a block that
is not faulted, is stored and faults with cause 3 and no other effect. -/
def Obligations.EveryOtherCommandWordFaults : Prop :=
  (∀ w : Word, (∃ i, decode w = .ok i) ↔ w ∈ commandWords) ∧
  ∀ (s : State) (w : Word) (rest : List HostEvent),
    s.faulted = false → s.inbox = .hostWrite 0#6 w :: rest → w ∉ commandWords →
    step s = .next (State.afterFault { s with cmd := w, inbox := rest } 3#32)

/-- R81: the register numbers, and the byte offset of each. -/
def Obligations.RegisterNumbersAndOffsets : Prop :=
  (∀ (n : RegNum) (r : RegName), regOfNumber n = some r ↔ numberOfReg r = n) ∧
  (∀ n : RegNum, regOfNumber n = none ↔ n.toNat = 7 ∨ n.toNat = 11 ∨ 20 ≤ n.toNat) ∧
  (∀ n : RegNum, (offsetOfNumber n).toNat = 4 * n.toNat ∧ numberAtOffset (offsetOfNumber n) = n)

/-- A step runs the decoded command: what the step adds around `exec` is that the event leaves the inbox and that CMD
holds the word (R84). -/
def Obligations.StepRunsTheDecodedCommand : Prop :=
  ∀ (s : State) (w : Word) (i : Instr) (rest : List HostEvent),
    s.faulted = false → s.inbox = .hostWrite 0#6 w :: rest → decode w = .ok i →
    step s = exec i { s with cmd := w, inbox := rest }

/-- The model's choices of log 1 and log 7: with no event pending a step changes nothing, and `withFetchWord` makes
the next step run the word's command. -/
def Obligations.FetchedWordRunsAndIdleStepIsNothing : Prop :=
  (∀ s : State, s.inbox = [] → step s = .next s) ∧
  ∀ (s : State) (w : Nat) (i : Instr),
    s.faulted = false → w < 2 ^ 32 → decode (BitVec.ofNat 32 w) = .ok i →
    step (s.withFetchWord 32 w) = exec i { s with cmd := BitVec.ofNat 32 w }

/-- R82: a read returns the register's value (the reserved bits of STATUS and CAUSE as 0) or 0 for a reserved number,
in every state, faulted or not, and changes nothing in the block. -/
def Obligations.HostReadReturnsTheRegister : Prop :=
  ∀ (s : State) (n : RegNum) (rest : List HostEvent), s.inbox = .hostRead n :: rest →
    ∃ v : Word, step s = .next { s with inbox := rest, replies := s.replies ++ [v] } ∧
      (n = 0#6 → v = s.cmd) ∧ (n = 1#6 → v = s.status &&& 0x000000F3#32) ∧
      (n = 2#6 → v = s.cause &&& 0x0000000F#32) ∧ (n = 3#6 → v = s.cap) ∧
      (n = 4#6 → v = s.a0) ∧ (n = 5#6 → v = s.a1) ∧ (n = 6#6 → v = s.a2) ∧
      (n = 8#6 → v = s.r0) ∧ (n = 9#6 → v = s.r1) ∧ (n = 10#6 → v = s.r2) ∧
      (n = 12#6 → v = s.width) ∧ (n = 13#6 → v = s.height) ∧ (n = 14#6 → v = s.side) ∧
      (n = 15#6 → v = s.tcols) ∧ (n = 16#6 → v = s.trows) ∧ (n = 17#6 → v = s.tcount) ∧
      (n = 18#6 → v = s.tlen) ∧ (n = 19#6 → v = s.nelem) ∧
      (n.toNat = 7 ∨ n.toNat = 11 ∨ 20 ≤ n.toNat → v = 0#32)

/-- R83: a write to a register other than CMD. -/
def Obligations.HostWriteReachesOnlyArguments : Prop :=
  ∀ (s : State) (n : RegNum) (v : Word) (rest : List HostEvent),
    n ≠ 0#6 → s.inbox = .hostWrite n v :: rest →
    (s.faulted = true → step s = .next { s with inbox := rest }) ∧
    (s.faulted = false →
      (n = 4#6 → step s = .next { s with inbox := rest, a0 := v }) ∧
      (n = 5#6 → step s = .next { s with inbox := rest, a1 := v }) ∧
      (n = 6#6 → step s = .next { s with inbox := rest, a2 := v }) ∧
      (n ≠ 4#6 → n ≠ 5#6 → n ≠ 6#6 → step s = .next { s with inbox := rest }))

/-- R85: the reserved numbers read 0 and ignore writes. -/
def Obligations.ReservedNumbersNameNoRegister : Prop :=
  ∀ (s : State) (n : RegNum) (v : Word) (rest : List HostEvent),
    (n.toNat = 7 ∨ n.toNat = 11 ∨ 20 ≤ n.toNat) →
    (s.inbox = .hostRead n :: rest → step s = .next { s with inbox := rest, replies := s.replies ++ [0#32] }) ∧
    (s.inbox = .hostWrite n v :: rest → step s = .next { s with inbox := rest })

/-- R81 (the window) and R64, U6 (log 8): an access by byte offset is the register's transaction when it is one whole
aligned word, and is refused otherwise. -/
def Obligations.WindowAccessIsWholeWordsOnly : Prop :=
  ∀ (s : State) (offset : BitVec 8) (bytes : Nat) (data : Option Word) (rest : List HostEvent),
    s.inbox = .windowAccess offset bytes data :: rest →
    (bytes = 4 ∧ offset.toNat % 4 = 0 → ∃ n : RegNum, 4 * n.toNat = offset.toNat ∧
      (∀ v, data = some v → step s = step { s with inbox := .hostWrite n v :: rest }) ∧
      (data = none → step s = step { s with inbox := .hostRead n :: rest })) ∧
    (bytes ≠ 4 ∨ offset.toNat % 4 ≠ 0 → step s = .refused .partialAccess)

/-- R92: a macro's transactions, served one after another, run its command on its arguments. -/
def Obligations.MacroRunsItsCommand : Prop :=
  ∀ (s : State) (m : Macro) (rest : List HostEvent),
    s.faulted = false → s.inbox = eventsOfMacro m ++ rest →
    core.run (eventsOfMacro m).length s =
      exec (instrOfMacro m) { withMacroArgs s m with cmd := encode (instrOfMacro m), inbox := rest }

/-! ## Reset, status, faults -/

/-- R34: every register after a reset, from any state, and in the state after power-on; `CAP` stays. -/
def Obligations.ResetZeroesEveryRegister : Prop :=
  (∀ r : RegName, r ≠ .cap → regValue State.reset r = 0#32) ∧ State.reset.status = 0#32 ∧ State.reset.cause = 0#32 ∧
  ∀ (s : State) (rest : List HostEvent), s.inbox = .reset :: rest →
    ∃ t, step s = .next t ∧ (∀ r : RegName, r ≠ .cap → regValue t r = 0#32) ∧ t.status = 0#32 ∧ t.cause = 0#32 ∧
      t.cap = s.cap ∧ t.inbox = rest ∧ t.replies = s.replies

/-- R24, R183, R182, R186: the three updates of STATUS change exactly the bits of their field. -/
def Obligations.StatusFieldUpdatesTouchOnlyTheirBits : Prop :=
  (∀ (w : Word) (rc : BitVec 4) (i : Nat), i < 32 →
    (setRc rc w).getLsbD i = if 4 ≤ i ∧ i < 8 then rc.getLsbD (i - 4) else w.getLsbD i) ∧
  (∀ (w : Word) (i : Nat), i < 32 → (setFault w).getLsbD i = (decide (i = 0) || w.getLsbD i)) ∧
  (∀ (w : Word) (i : Nat), i < 32 → (setValid w).getLsbD i = (decide (i = 1) || w.getLsbD i))

/-- The invariant holds in the state after reset, for every value of the parameter `CAP` and every list of events. -/
def Obligations.ResetMeetsTheInvariant : Prop :=
  ∀ (c : Word) (events : List HostEvent), c ≠ 0#32 → Inv { State.reset with cap := c, inbox := events }

/-- Every step keeps the invariant (R24, R25, R26, R29, R30, R32). -/
def Obligations.StepKeepsTheInvariant : Prop :=
  ∀ s t : State, Inv s → step s = .next t → Inv t

/-- Under the invariant, a step stops only at an access that is not one whole aligned register. -/
def Obligations.SafeStatesStep : Prop :=
  (∀ s : State, Safe s → ∃ t, step s = .next t) ∧
  (∀ (s : State) (f : Fault), Inv s → step s ≠ .fault f) ∧
  (∀ (i : Instr) (s : State), Inv s → ∃ t, exec i s = .next t)

/-- R25: at every moment between transactions of every host script, from reset with every `CAP`; and VALID, once 1,
stays 1 until reset, from every state. -/
def Obligations.FaultRcAndCauseAgreeAndValidSticks : Prop :=
  (∀ (c : Word) (events : List HostEvent) (k : Nat) (t : State), c ≠ 0#32 →
    core.run k { State.reset with cap := c, inbox := events } = .next t →
    (t.faulted = true ↔ t.rc = 2#4) ∧ (t.rc = 2#4 ↔ t.cause ≠ 0#32)) ∧
  (∀ s t : State, s.valid = true → s.inbox.head? ≠ some .reset → step s = .next t → t.valid = true)

/-- R86, R195: while FAULT = 1 every write is ignored, every read answered, for every sequence of transactions; a
reset leaves the state. -/
def Obligations.FaultedBlockIgnoresEveryWrite : Prop :=
  (∀ (s : State) (events rest : List HostEvent), s.faulted = true → s.inbox = events ++ rest →
    (∀ e ∈ events, e ≠ .reset ∧ e.wf = true) →
    core.run events.length s = .next
      { s with inbox := rest, replies := s.replies ++ (events.filterMap readNumber).map (portValue s) }) ∧
  (∀ (s : State) (rest : List HostEvent), s.faulted = true → s.inbox = .reset :: rest →
    ∃ t, step s = .next t ∧ t.faulted = false)

/-- R180, R182, R183, R186: a command ends in exactly one of three ways, told apart by RC; a failing one has no effect
but its report. -/
def Obligations.CommandEndsInOneOfThreeWays : Prop :=
  ∀ (i : Instr) (s t : State), exec i s = .next t →
    (t.rc = 0#4 ∧ t.faulted = s.faulted ∧ t.cause = s.cause) ∨
    (t.rc = 1#4 ∧ i = .build ∧ s.arg2 ≠ s.arg0 * s.arg1 ∧ t = { s with status := setRc 1#4 s.status }) ∨
    (t.rc = 2#4 ∧ ∃ c : Cause, t = s.afterFault (causeCode c))

/-- R193: which command raises which failure: every row of the table arises, and nothing else does. -/
def Obligations.FailureTable : Prop :=
  (∀ (i : Instr) (c : Cause),
    (∃ s t : State, s.faulted = false ∧ exec i s = .next t ∧ t.faulted = true ∧ t.cause = causeCode c) ↔
      (i, c) ∈ faultTable) ∧
  (∀ i : Instr, (∃ s t : State, exec i s = .next t ∧ t.rc = 1#4) ↔ i = .build) ∧
  (∀ (s : State) (w : Word), (∀ i, decode w ≠ .ok i) →
    runCommand w s = .next (State.afterFault { s with cmd := w } 3#32))

/-- R21, R214, R215: no command writes an argument register, a failing one writes no result register, and each command
writes only the result registers its rule names; what stands outside the block is no command's to change. -/
def Obligations.CommandsWriteOnlyTheirResultRegisters : Prop :=
  ∀ (i : Instr) (s t : State), exec i s = .next t →
    t.a0 = s.a0 ∧ t.a1 = s.a1 ∧ t.a2 = s.a2 ∧ t.cmd = s.cmd ∧ t.cap = s.cap ∧ t.epoch = s.epoch ∧
    t.inbox = s.inbox ∧ t.replies = s.replies ∧
    (t.rc ≠ 0#4 → t.r0 = s.r0 ∧ t.r1 = s.r1 ∧ t.r2 = s.r2) ∧
    (i ∈ [Instr.build, .put] → t.r0 = s.r0) ∧
    (i ∈ [Instr.ilv, .side, .build, .getm, .getxy, .put] → t.r1 = s.r1) ∧
    (i ∈ [Instr.ilv, .dlv, .side, .build, .getm, .getxy, .put] → t.r2 = s.r2)

/-- R169, R131, R133: only a successful BUILD changes the layout registers, VALID or DST; only PUT changes SRC. -/
def Obligations.OnlyBuildChangesTheLayout : Prop :=
  ∀ (i : Instr) (s t : State), exec i s = .next t →
    (i ≠ .build ∨ t.rc ≠ 0#4 → SameLayout s t) ∧ (i ≠ .put ∨ t.rc ≠ 0#4 → t.src = s.src)

/-- R89, R108: an argument register a command does not list has no effect: running the command with it changed is
running the command and changing it afterwards. -/
def Obligations.UnlistedArgumentsHaveNoEffect : Prop :=
  ∀ (s : State) (v : Word),
    (∀ i : Instr, i ≠ .build → exec i { s with a2 := v } = mapNext (fun t => { t with a2 := v }) (exec i s)) ∧
    (∀ i ∈ [Instr.dlv, .tinv, .tile],
      exec i { s with a1 := v } = mapNext (fun t => { t with a1 := v }) (exec i s))

/-- R211, R62 (log 4): in every step that is no reset, an element of SRC keeps its value, written or not, unless the
step is a PUT to it. -/
def Obligations.SourceElementsStayUntilPut : Prop :=
  ∀ s t : State, step s = .next t → s.inbox.head? ≠ some .reset →
    ∀ i : Nat, t.srcElem i = s.srcElem i ∨
      (s.faulted = false ∧ s.inbox.head?.bind commandWord = some 0x00000020#32 ∧ i = s.a0.toNat ∧
        t.srcElem i = s.a1)

/-- R32: no command returns an element of DST that no BUILD has written since the last reset. -/
def Obligations.AccessorsReturnOnlyBuiltElements : Prop :=
  ∀ (i : Instr) (s t : State), Inv s → i = .getm ∨ i = .getxy → exec i s = .next t → t.rc = 0#4 →
    ∃ d, d < s.nelem.toNat ∧ s.dst.read d = some t.r0

/-! ## The bit codec -/

/-- R100: bit 2i of the key is bit i of x, bit 2i + 1 is bit i of y; equivalently the sum. -/
def Obligations.InterleaveMeetsItsBitContract : Prop :=
  ∀ x y : Coord,
    (∀ i, i < 16 → (interleave x y).getLsbD (2 * i) = x.getLsbD i ∧
      (interleave x y).getLsbD (2 * i + 1) = y.getLsbD i) ∧
    (interleave x y).toNat = ∑ i ∈ Finset.range 16,
      ((x.getLsbD i).toNat * 4 ^ i + (y.getLsbD i).toNat * 2 * 4 ^ i)

/-- R101: bit i of x is bit 2i of the key, bit i of y is bit 2i + 1. -/
def Obligations.DeinterleaveMeetsItsBitContract : Prop :=
  ∀ z : Word, ∀ i, i < 16 → (deinterleave z).1.getLsbD i = z.getLsbD (2 * i) ∧
    (deinterleave z).2.getLsbD i = z.getLsbD (2 * i + 1)

/-- R103: the spread sequence of R102 computes `interleave`; and what R102 says of its result. -/
def Obligations.SpreadSequenceComputesInterleave : Prop :=
  (∀ x y : Coord, interleave x y = spread16 x ||| (spread16 y <<< 1)) ∧
  ∀ v : Coord, spread16 v = interleave v 0#16 ∧
    ∀ i, i < 16 → (spread16 v).getLsbD (2 * i) = v.getLsbD i ∧ (spread16 v).getLsbD (2 * i + 1) = false

/-- R104: the compress sequence computes `deinterleave`, and what the rule says of its result. -/
def Obligations.CompressSequenceComputesDeinterleave : Prop :=
  (∀ z : Word, deinterleave z = (compress32 z, compress32 (z >>> 1))) ∧
  ∀ w : Word, ∀ i, i < 16 → (compress32 w).getLsbD i = w.getLsbD (2 * i)

/-- R107: the round trips, of the functions and of the commands. -/
def Obligations.CodecRoundTrips : Prop :=
  (∀ x y : Coord, deinterleave (interleave x y) = (x, y)) ∧
  (∀ z : Word, interleave (deinterleave z).1 (deinterleave z).2 = z) ∧
  (∀ s : State, s.a0.toNat < 2 ^ 16 → s.a1.toNat < 2 ^ 16 →
    ∃ t u, exec .ilv s = .next t ∧ exec .dlv { t with a0 := t.r0 } = .next u ∧ u.r0 = s.a0 ∧ u.r1 = s.a1) ∧
  (∀ s : State, ∃ t u, exec .dlv s = .next t ∧ exec .ilv { t with a0 := t.r0, a1 := t.r1 } = .next u ∧
    u.r0 = s.a0 ∧ u.rc = 0#4)

/-- R109: `interleave` is a bijection with two-sided inverse `deinterleave`, and restricts for every k to a bijection
between the square below 2^k and the keys below 4^k. -/
def Obligations.InterleaveIsABijectionOnEverySquare : Prop :=
  Function.Bijective (fun p : Coord × Coord => interleave p.1 p.2) ∧
  Function.LeftInverse (fun z : Word => deinterleave z) (fun p => interleave p.1 p.2) ∧
  Function.RightInverse (fun z : Word => deinterleave z) (fun p => interleave p.1 p.2) ∧
  ∀ k, k ≤ 16 → Set.BijOn (fun p : Coord × Coord => interleave p.1 p.2)
    {p | p.1.toNat < 2 ^ k ∧ p.2.toNat < 2 ^ k} {z | z.toNat < 4 ^ k}

/-- R110: the keys of a square of side 2^(k+1) visit its four quadrants in the order (0,0), (1,0), (0,1), (1,1), and
each quadrant in the order of its own keys: the Z-curve. -/
def Obligations.KeysOfASquareFollowTheZCurve : Prop :=
  ∀ (k : Nat) (x y : Coord), k < 16 → x.toNat < 2 ^ (k + 1) → y.toNat < 2 ^ (k + 1) →
    (interleave x y).toNat / 4 ^ k = x.toNat / 2 ^ k + 2 * (y.toNat / 2 ^ k) ∧
    (interleave x y).toNat % 4 ^ k =
      (interleave (BitVec.ofNat 16 (x.toNat % 2 ^ k)) (BitVec.ofNat 16 (y.toNat % 2 ^ k))).toNat

/-- R105: ILV. -/
def Obligations.IlvInterleavesOrFaults : Prop :=
  decode 0x00000001#32 = .ok .ilv ∧
  ∀ s : State,
    (s.a0.toNat < 2 ^ 16 ∧ s.a1.toNat < 2 ^ 16 → ∃ z : Word,
      (∀ i, i < 16 → z.getLsbD (2 * i) = s.a0.getLsbD i ∧ z.getLsbD (2 * i + 1) = s.a1.getLsbD i) ∧
      exec .ilv s = .next { s with r0 := z, status := setRc 0#4 s.status }) ∧
    (2 ^ 16 ≤ s.a0.toNat ∨ 2 ^ 16 ≤ s.a1.toNat → exec .ilv s = .next (s.afterFault 1#32))

/-- R106: DLV. -/
def Obligations.DlvDeinterleavesEveryKey : Prop :=
  decode 0x00000002#32 = .ok .dlv ∧
  ∀ s : State, ∃ x y : Word,
    (∀ i, i < 16 → x.getLsbD i = s.a0.getLsbD (2 * i) ∧ y.getLsbD i = s.a0.getLsbD (2 * i + 1)) ∧
    x.toNat < 2 ^ 16 ∧ y.toNat < 2 ^ 16 ∧
    exec .dlv s = .next { s with r0 := x, r1 := y, status := setRc 0#4 s.status }

/-! ## The tile rearranger -/

/-- R124, R120: the side derivation in closed form; it divides both dimensions, no larger power of two up to 2^16
does, and it is symmetric. -/
def Obligations.TileSideClosedForm : Prop :=
  ∀ w h : Nat, 1 ≤ w → 1 ≤ h →
    tileSide w h = 2 ^ sideExponent w h ∧ tileSide w h = tileSide h w ∧ tileSide w h ≤ 2 ^ 16 ∧
    tileSide w h ∣ w ∧ tileSide w h ∣ h ∧
    ∀ j, j ≤ 16 → 2 ^ j ∣ w → 2 ^ j ∣ h → 2 ^ j ≤ tileSide w h

/-- R125: SIDE. -/
def Obligations.SideDerivesTheTileSideOrFaults : Prop :=
  decode 0x00000010#32 = .ok .side ∧
  ∀ s : State,
    (s.a0 ≠ 0#32 ∧ s.a1 ≠ 0#32 → exec .side s = .next
      { s with r0 := BitVec.ofNat 32 (2 ^ sideExponent s.a0.toNat s.a1.toNat), status := setRc 0#4 s.status }) ∧
    (s.a0 = 0#32 ∨ s.a1 = 0#32 → exec .side s = .next (s.afterFault 2#32))

/-- R127, R131: BUILD's tests, their order, and that a failing BUILD leaves everything but its report. -/
def Obligations.BuildChecksInOrderBeforeWriting : Prop :=
  ∀ s : State,
    (s.a2.toNat ≠ s.a0.toNat * s.a1.toNat →
      exec .build s = .next { s with status := setRc 1#4 s.status }) ∧
    (s.a2.toNat = s.a0.toNat * s.a1.toNat → s.a0 = 0#32 ∨ s.a1 = 0#32 →
      exec .build s = .next (s.afterFault 2#32)) ∧
    (s.a2.toNat = s.a0.toNat * s.a1.toNat → s.a0 ≠ 0#32 → s.a1 ≠ 0#32 → s.cap.toNat < s.a2.toNat →
      exec .build s = .next (s.afterFault 5#32))

/-- R126, R128, R130: a successful BUILD: the layout registers, VALID, every element at its place, the rest of DST and
everything else as it was. -/
def Obligations.BuildRearrangesTheWholeGrid : Prop :=
  decode 0x00000011#32 = .ok .build ∧
  ∀ s : State, s.a2.toNat = s.a0.toNat * s.a1.toNat → s.a0 ≠ 0#32 → s.a1 ≠ 0#32 → s.a2.toNat ≤ s.cap.toNat →
    ∃ (side : Nat) (m : Memory) (t : State),
      side = 2 ^ sideExponent s.a0.toNat s.a1.toNat ∧
      t = { s with
        dst := m, width := s.a0, height := s.a1, side := BitVec.ofNat 32 side
        tcols := BitVec.ofNat 32 (s.a0.toNat / side), trows := BitVec.ofNat 32 (s.a1.toNat / side)
        tcount := BitVec.ofNat 32 ((s.a0.toNat / side) * (s.a1.toNat / side))
        tlen := BitVec.ofNat 32 (side * side), nelem := s.a2
        status := setRc 0#4 (setValid s.status) } ∧
      exec .build s = .next t ∧
      (∀ x y, x < s.a0.toNat → y < s.a1.toNat →
        t.dstElem ((y / side) * (s.a0.toNat / side) * side * side + (x / side) * side * side +
            (interleave (BitVec.ofNat 16 (x % side)) (BitVec.ofNat 16 (y % side))).toNat) =
          s.srcElem (y * s.a0.toNat + x)) ∧
      (∀ d, d < s.a2.toNat → ∃! i, i < s.a2.toNat ∧
        destOffset s.a0.toNat side (i % s.a0.toNat) (i / s.a0.toNat) = d) ∧
      (∀ d, s.a2.toNat ≤ d → t.dstElem d = s.dstElem d)

/-- R129: the pass is a bijection of [0, w * h). -/
def Obligations.RearrangementIsABijection : Prop :=
  ∀ w h : Nat, 1 ≤ w → 1 ≤ h →
    Set.BijOn (fun i => destOffset w (tileSide w h) (i % w) (i / w)) (Set.Iio (w * h)) (Set.Iio (w * h))

/-- R132: every source element appears in DST exactly once, unaltered, and SRC keeps its values. -/
def Obligations.BuildMovesEveryElementOnce : Prop :=
  ∀ s t : State, exec .build s = .next t → t.rc = 0#4 →
    ((List.range t.nelem.toNat).map t.dstElem).Perm ((List.range t.nelem.toNat).map s.srcElem) ∧
    t.src = s.src ∧ ∀ i, t.srcElem i = s.srcElem i

/-- R69, what it says of the order: every order of the moves gives the same DST. -/
def Obligations.OrderOfTheMovesDoesNotMatter : Prop :=
  ∀ (s : State) (w h : Nat) (order : List Nat), 1 ≤ w → 1 ≤ h → Memory.wf s.dst →
    order.Perm (List.range (w * h)) →
    movesInOrder s w (tileSide w h) order s.dst = rearrange s w (tileSide w h) h s.dst

/-- R29, numeric part: what the layout registers satisfy whenever VALID = 1. -/
def Obligations.LayoutRegistersFitTogether : Prop :=
  ∀ s : State, Inv s → s.valid = true →
    1 ≤ s.width.toNat ∧ 1 ≤ s.height.toNat ∧ s.nelem.toNat = s.width.toNat * s.height.toNat ∧
    1 ≤ s.nelem.toNat ∧ s.nelem.toNat ≤ s.cap.toNat ∧
    s.side.toNat = 2 ^ sideExponent s.width.toNat s.height.toNat ∧ s.side.toNat ≤ 2 ^ 15 ∧
    s.side.toNat ∣ s.width.toNat ∧ s.side.toNat ∣ s.height.toNat ∧
    s.tcols.toNat = s.width.toNat / s.side.toNat ∧ 1 ≤ s.tcols.toNat ∧
    s.trows.toNat = s.height.toNat / s.side.toNat ∧ 1 ≤ s.trows.toNat ∧
    s.tcount.toNat = s.tcols.toNat * s.trows.toNat ∧ s.tlen.toNat = s.side.toNat * s.side.toNat ∧
    s.tcount.toNat * s.tlen.toNat = s.nelem.toNat

/-- R30: without a layout every layout register reads as 0, and SIDE tells VALID. -/
def Obligations.LayoutRegistersReadZeroWithoutALayout : Prop :=
  ∀ s : State, Inv s →
    (s.valid = false → ∀ n : RegNum, 12 ≤ n.toNat → n.toNat ≤ 19 → portValue s n = 0#32) ∧
    (s.valid = true ↔ portValue s 14#6 ≠ 0#32)

/-- R136, R135: TMAP. -/
def Obligations.TmapGivesTheDestinationOffset : Prop :=
  decode 0x00000012#32 = .ok .tmap ∧
  ∀ s : State,
    (s.valid = false → exec .tmap s = .next (s.afterFault 4#32)) ∧
    (s.valid = true → s.width.toNat ≤ s.a0.toNat ∨ s.height.toNat ≤ s.a1.toNat →
      exec .tmap s = .next (s.afterFault 5#32)) ∧
    (s.valid = true → LayoutOk s → s.a0.toNat < s.width.toNat → s.a1.toNat < s.height.toNat →
      ∃ d t m : Nat,
        m = (interleave (BitVec.ofNat 16 (s.a0.toNat % s.side.toNat))
          (BitVec.ofNat 16 (s.a1.toNat % s.side.toNat))).toNat ∧
        t = (s.a1.toNat / s.side.toNat) * s.tcols.toNat + s.a0.toNat / s.side.toNat ∧
        d = t * s.tlen.toNat + m ∧ m < s.tlen.toNat ∧ t < s.tcount.toNat ∧ d < s.nelem.toNat ∧
        exec .tmap s = .next { s with
          r0 := BitVec.ofNat 32 d, r1 := BitVec.ofNat 32 t, r2 := BitVec.ofNat 32 m, status := setRc 0#4 s.status })

/-- R138, R137: TINV. -/
def Obligations.TinvGivesTheGridPosition : Prop :=
  decode 0x00000013#32 = .ok .tinv ∧
  ∀ s : State,
    (s.valid = false → exec .tinv s = .next (s.afterFault 4#32)) ∧
    (s.valid = true → s.nelem.toNat ≤ s.a0.toNat → exec .tinv s = .next (s.afterFault 5#32)) ∧
    (s.valid = true → LayoutOk s → s.a0.toNat < s.nelem.toNat →
      ∃ x y t m lx ly : Nat,
        t = s.a0.toNat / s.tlen.toNat ∧ m = s.a0.toNat % s.tlen.toNat ∧
        lx = (deinterleave (BitVec.ofNat 32 m)).1.toNat ∧ ly = (deinterleave (BitVec.ofNat 32 m)).2.toNat ∧
        x = (t % s.tcols.toNat) * s.side.toNat + lx ∧ y = (t / s.tcols.toNat) * s.side.toNat + ly ∧
        lx < s.side.toNat ∧ ly < s.side.toNat ∧ x < s.width.toNat ∧ y < s.height.toNat ∧ t < s.tcount.toNat ∧
        exec .tinv s = .next { s with
          r0 := BitVec.ofNat 32 x, r1 := BitVec.ofNat 32 y, r2 := BitVec.ofNat 32 t, status := setRc 0#4 s.status })

/-- R139: the two maps are inverse on a valid layout. -/
def Obligations.AddressMapsAreInverse : Prop :=
  ∀ s : State, LayoutOk s →
    (∀ x y, x < s.width.toNat → y < s.height.toNat →
      (s.tmap x y).d < s.nelem.toNat ∧ s.tinv (s.tmap x y).d = ⟨x, y, (s.tmap x y).t⟩) ∧
    (∀ d, d < s.nelem.toNat →
      (s.tinv d).x < s.width.toNat ∧ (s.tinv d).y < s.height.toNat ∧
      (s.tmap (s.tinv d).x (s.tinv d).y).d = d)

/-- The corner cases of R136, R138 and R163: the last position, the last offset and the last tile. -/
def Obligations.LastPositionLastOffsetLastTile : Prop :=
  ∀ s : State, LayoutOk s →
    s.tmap (s.width.toNat - 1) (s.height.toNat - 1) =
      ⟨s.nelem.toNat - 1, s.tcount.toNat - 1, s.tlen.toNat - 1⟩ ∧
    s.tinv (s.nelem.toNat - 1) = ⟨s.width.toNat - 1, s.height.toNat - 1, s.tcount.toNat - 1⟩ ∧
    (s.side = 1#32 → ∀ x y, x < s.width.toNat → y < s.height.toNat →
      (s.tmap x y).d = y * s.width.toNat + x ∧ (s.tmap x y).m = 0)

/-! ## Layout access and source load -/

/-- R161: the tiles are disjoint ranges of one length that together cover the layout. -/
def Obligations.TilesAreDisjointAndCoverTheLayout : Prop :=
  ∀ s : State, LayoutOk s →
    (∀ t, t < s.tcount.toNat → t * s.tlen.toNat + s.tlen.toNat ≤ s.nelem.toNat) ∧
    (∀ d, d < s.nelem.toNat →
      ∃! t, t < s.tcount.toNat ∧ t * s.tlen.toNat ≤ d ∧ d < t * s.tlen.toNat + s.tlen.toNat)

/-- R162: a tile's grid position, and the position of each of its elements. -/
def Obligations.TileHoldsItsSquareOfTheGrid : Prop :=
  ∀ s : State, LayoutOk s → ∀ t, t < s.tcount.toNat →
    (∀ x y, x < s.width.toNat → y < s.height.toNat →
      ((s.tmap x y).t = t ↔ x / s.side.toNat = t % s.tcols.toNat ∧ y / s.side.toNat = t / s.tcols.toNat)) ∧
    ∀ m, m < s.tlen.toNat → ∃ x y : Nat,
      x = (t % s.tcols.toNat) * s.side.toNat + (deinterleave (BitVec.ofNat 32 m)).1.toNat ∧
      y = (t / s.tcols.toNat) * s.side.toNat + (deinterleave (BitVec.ofNat 32 m)).2.toNat ∧
      x < s.width.toNat ∧ y < s.height.toNat ∧
      x / s.side.toNat = t % s.tcols.toNat ∧ y / s.side.toNat = t / s.tcols.toNat ∧
      s.tmap x y = ⟨t * s.tlen.toNat + m, t, m⟩

/-- R163: TILE. -/
def Obligations.TileGivesOffsetColumnAndRow : Prop :=
  decode 0x00000014#32 = .ok .tile ∧
  ∀ s : State,
    (s.valid = false → exec .tile s = .next (s.afterFault 4#32)) ∧
    (s.valid = true → s.tcount.toNat ≤ s.a0.toNat → exec .tile s = .next (s.afterFault 5#32)) ∧
    (s.valid = true → LayoutOk s → s.a0.toNat < s.tcount.toNat →
      ∃ offset column row : Word,
        offset.toNat = s.a0.toNat * s.tlen.toNat ∧ column.toNat = s.a0.toNat % s.tcols.toNat ∧
        row.toNat = s.a0.toNat / s.tcols.toNat ∧ offset.toNat + s.tlen.toNat ≤ s.nelem.toNat ∧
        column.toNat < s.tcols.toNat ∧ row.toNat < s.trows.toNat ∧
        exec .tile s = .next { s with r0 := offset, r1 := column, r2 := row, status := setRc 0#4 s.status })

/-- R165: GETM. -/
def Obligations.GetmReadsTheTileElement : Prop :=
  decode 0x00000015#32 = .ok .getm ∧
  ∀ s : State,
    (s.valid = false → exec .getm s = .next (s.afterFault 4#32)) ∧
    (s.valid = true → s.tcount.toNat ≤ s.a0.toNat ∨ s.tlen.toNat ≤ s.a1.toNat →
      exec .getm s = .next (s.afterFault 5#32)) ∧
    (s.valid = true → LayoutOk s → s.a0.toNat < s.tcount.toNat → s.a1.toNat < s.tlen.toNat →
      s.a0.toNat * s.tlen.toNat + s.a1.toNat < s.nelem.toNat ∧
      exec .getm s = .next
        { s with r0 := s.dstElem (s.a0.toNat * s.tlen.toNat + s.a1.toNat), status := setRc 0#4 s.status })

/-- R167: GETXY. -/
def Obligations.GetxyReadsTheGridElement : Prop :=
  decode 0x00000016#32 = .ok .getxy ∧
  ∀ s : State,
    (s.valid = false → exec .getxy s = .next (s.afterFault 4#32)) ∧
    (s.valid = true → s.width.toNat ≤ s.a0.toNat ∨ s.height.toNat ≤ s.a1.toNat →
      exec .getxy s = .next (s.afterFault 5#32)) ∧
    (s.valid = true → LayoutOk s → s.a0.toNat < s.width.toNat → s.a1.toNat < s.height.toNat →
      (s.tmap s.a0.toNat s.a1.toNat).d < s.nelem.toNat ∧
      exec .getxy s = .next
        { s with r0 := s.dstElem (s.tmap s.a0.toNat s.a1.toNat).d, status := setRc 0#4 s.status })

/-- R175: PUT. Every element of SRC but the stored one, and every element of DST, reads as before. -/
def Obligations.PutStoresOneSourceElement : Prop :=
  decode 0x00000020#32 = .ok .put ∧
  ∀ s : State,
    (s.cap.toNat ≤ s.a0.toNat → exec .put s = .next (s.afterFault 5#32)) ∧
    (s.a0.toNat < s.cap.toNat → ∃ (m : Memory) (t : State),
      t = { s with src := m, status := setRc 0#4 s.status } ∧ exec .put s = .next t ∧
      (∀ i, t.srcElem i = if i = s.a0.toNat then s.a1 else s.srcElem i) ∧
      (∀ i, t.dstElem i = s.dstElem i))

/-- R168: after a successful BUILD, and until the next successful BUILD or reset, whatever else the host does, GETXY
returns the source element the BUILD found, and GETM that of the position TINV gives. The state `u` may be faulted: then
`exec` says what the command's rule alone says, and no step of the port runs it (log 11). -/
def Obligations.ElementsReadBackAsBuilt : Prop :=
  ∀ s b u : State, exec .build s = .next b → b.rc = 0#4 → Relation.ReflTransGen StepWithoutRebuild b u →
    (u.a0.toNat < s.a0.toNat → u.a1.toNat < s.a1.toNat →
      exec .getxy u = .next
        { u with r0 := s.srcElem (u.a1.toNat * s.a0.toNat + u.a0.toNat), status := setRc 0#4 u.status }) ∧
    (u.a0.toNat < b.tcount.toNat → u.a1.toNat < b.tlen.toNat →
      ∃ x y : Nat, x < s.a0.toNat ∧ y < s.a1.toNat ∧
        u.tinv (u.a0.toNat * b.tlen.toNat + u.a1.toNat) = ⟨x, y, u.a0.toNat⟩ ∧
        exec .getm u = .next
          { u with r0 := s.srcElem (y * s.a0.toNat + x), status := setRc 0#4 u.status })
end

