-- ==== Sys2Proof/Laws/Codec.lean ====
section
/-! SUPPORT. The arithmetic of the bit codec: `spreadBits` and `compressBits` (40_bit_codec.md R100, R101) bit by bit,
their bounds, and that they undo each other. -/

namespace Sys2Proof.Machine

@[simp] theorem spreadBits_zero (v : Nat) : spreadBits 0 v = 0 := rfl

@[simp] theorem compressBits_zero (z : Nat) : compressBits 0 z = 0 := rfl

theorem spreadBits_succ (n v : Nat) : spreadBits (n + 1) v = v % 2 + 4 * spreadBits n (v / 2) := rfl

theorem compressBits_succ (n z : Nat) : compressBits (n + 1) z = z % 2 + 2 * compressBits n (z / 4) := rfl

/-- A spread value leaves room for the other one: three times it is below `4 ^ n`. -/
theorem spreadBits_bound (n v : Nat) : 3 * spreadBits n v + 1 ≤ 4 ^ n := by
  induction n generalizing v with
  | zero => simp
  | succ n ih =>
    have := ih (v / 2)
    rw [spreadBits_succ, pow_succ]
    omega

/-- A value of `k` bits spreads within the low `2 * k` bits. -/
theorem spreadBits_bound_of_lt {n k v : Nat} (h : v < 2 ^ k) : 3 * spreadBits n v + 1 ≤ 4 ^ k := by
  induction n generalizing k v with
  | zero => simpa using Nat.one_le_pow k 4 (by omega)
  | succ n ih =>
    cases k with
    | zero =>
      have hv : v = 0 := by simpa using h
      have := ih (k := 0) (v := v / 2) (by simp [hv])
      rw [spreadBits_succ, hv] at *
      simpa using this
    | succ k =>
      have := ih (k := k) (v := v / 2) (by rw [pow_succ] at h; omega)
      rw [spreadBits_succ, pow_succ]
      omega

theorem compressBits_lt (n z : Nat) : compressBits n z < 2 ^ n := by
  induction n generalizing z with
  | zero => simp
  | succ n ih => have := ih (z / 4); rw [compressBits_succ, pow_succ]; omega

theorem compressBits_lt_of_lt {n k z : Nat} (h : z < 4 ^ k) : compressBits n z < 2 ^ k := by
  induction n generalizing k z with
  | zero => simp
  | succ n ih =>
    cases k with
    | zero =>
      have hz : z = 0 := by simpa using h
      have := ih (k := 0) (z := z / 4) (by simp [hz])
      rw [compressBits_succ, hz] at *
      simpa using this
    | succ k =>
      have := ih (k := k) (z := z / 4) (by rw [pow_succ] at h; omega)
      rw [compressBits_succ, pow_succ]
      omega

/-- The even positions of a key hold x (R101 after R100). -/
theorem compressBits_spread (n x y : Nat) :
    compressBits n (spreadBits n x + 2 * spreadBits n y) = x % 2 ^ n := by
  induction n generalizing x y with
  | zero => simp [Nat.mod_one]
  | succ n ih =>
    rw [compressBits_succ, spreadBits_succ, spreadBits_succ]
    have h1 : (x % 2 + 4 * spreadBits n (x / 2) + 2 * (y % 2 + 4 * spreadBits n (y / 2))) / 4 =
        spreadBits n (x / 2) + 2 * spreadBits n (y / 2) := by omega
    rw [h1, ih, pow_succ, Nat.mul_comm (2 ^ n) 2, Nat.mod_mul]
    omega

/-- The odd positions of a key hold y. -/
theorem compressBits_spread_half (n x y : Nat) :
    compressBits n ((spreadBits n x + 2 * spreadBits n y) / 2) = y % 2 ^ n := by
  induction n generalizing x y with
  | zero => simp [Nat.mod_one]
  | succ n ih =>
    rw [compressBits_succ, spreadBits_succ, spreadBits_succ]
    have h1 : (x % 2 + 4 * spreadBits n (x / 2) + 2 * (y % 2 + 4 * spreadBits n (y / 2))) / 2 / 4 =
        (spreadBits n (x / 2) + 2 * spreadBits n (y / 2)) / 2 := by omega
    rw [h1, ih, pow_succ, Nat.mul_comm (2 ^ n) 2, Nat.mod_mul]
    omega

/-- Spreading what was compressed gives the key back (R107). -/
theorem spread_compressBits (n z : Nat) :
    spreadBits n (compressBits n z) + 2 * spreadBits n (compressBits n (z / 2)) = z % 4 ^ n := by
  induction n generalizing z with
  | zero => simp [Nat.mod_one]
  | succ n ih =>
    have := ih (z / 4)
    have h2 : z / 2 / 4 = z / 4 / 2 := by omega
    have h3 : (z % 2 + 2 * compressBits n (z / 4)) / 2 = compressBits n (z / 4) := by omega
    have h4 : (z / 2 % 2 + 2 * compressBits n (z / 4 / 2)) / 2 = compressBits n (z / 4 / 2) := by omega
    rw [compressBits_succ, compressBits_succ, spreadBits_succ, spreadBits_succ, h2, h3, h4, pow_succ,
      Nat.mul_comm (4 ^ n) 4, Nat.mod_mul]
    omega

/-- Bit `2 * i` of a spread value is bit `i`; its odd bits are 0. -/
theorem spreadBits_testBit (n v i : Nat) (h : i < n) :
    (spreadBits n v).testBit (2 * i) = v.testBit i ∧ (spreadBits n v).testBit (2 * i + 1) = false := by
  induction n generalizing v i with
  | zero => omega
  | succ n ih =>
    rw [spreadBits_succ]
    cases i with
    | zero =>
      refine ⟨?_, ?_⟩
      · simp only [Nat.mul_zero, Nat.testBit_zero]
        congr 1
        simp only [eq_iff_iff]
        omega
      · rw [Nat.mul_zero, Nat.zero_add, Nat.testBit_succ, Nat.testBit_zero]
        simp only [decide_eq_false_iff_not]
        omega
    | succ i =>
      have hs : (v % 2 + 4 * spreadBits n (v / 2)) / 2 / 2 = spreadBits n (v / 2) := by omega
      have hb : ∀ j, (v % 2 + 4 * spreadBits n (v / 2)).testBit (j + 2) = (spreadBits n (v / 2)).testBit j := fun j => by
        rw [Nat.testBit_succ, Nat.testBit_succ, hs]
      have := ih (v / 2) i (by omega)
      rw [show 2 * (i + 1) = 2 * i + 2 by omega, show 2 * i + 2 + 1 = 2 * i + 1 + 2 by omega, hb, hb, this.1, this.2,
        Nat.testBit_succ]
      exact ⟨rfl, rfl⟩

/-- Bit `i` of a compressed key is bit `2 * i`. -/
theorem compressBits_testBit (n z i : Nat) (h : i < n) : (compressBits n z).testBit i = z.testBit (2 * i) := by
  induction n generalizing z i with
  | zero => omega
  | succ n ih =>
    rw [compressBits_succ]
    cases i with
    | zero =>
      simp only [Nat.mul_zero, Nat.testBit_zero]
      congr 1
      simp only [eq_iff_iff]
      omega
    | succ i =>
      have hs : (z % 2 + 2 * compressBits n (z / 4)) / 2 = compressBits n (z / 4) := by omega
      have e1 : 2 * (i + 1) = 2 * i + 1 + 1 := by omega
      rw [Nat.testBit_succ, hs, ih _ _ (by omega), e1, Nat.testBit_succ, Nat.testBit_succ, Nat.div_div_eq_div_mul]

/-- The key as a number: the sum is below 2^32, so nothing is lost. -/
theorem interleave_toNat (x y : Coord) :
    (interleave x y).toNat = spreadBits 16 x.toNat + 2 * spreadBits 16 y.toNat := by
  have h1 := spreadBits_bound 16 x.toNat
  have h2 := spreadBits_bound 16 y.toNat
  rw [interleave, wordOf, BitVec.toNat_ofNat]
  exact Nat.mod_eq_of_lt (by norm_num at h1 h2 ⊢; omega)

theorem deinterleave_fst_toNat (z : Word) : (deinterleave z).1.toNat = compressBits 16 z.toNat := by
  rw [deinterleave, BitVec.toNat_ofNat]
  exact Nat.mod_eq_of_lt (compressBits_lt 16 _)

theorem deinterleave_snd_toNat (z : Word) : (deinterleave z).2.toNat = compressBits 16 (z.toNat / 2) := by
  rw [deinterleave, BitVec.toNat_ofNat]
  exact Nat.mod_eq_of_lt (compressBits_lt 16 _)

end Sys2Proof.Machine
end

