-- ==== Sys2Proof/Laws/Flags.lean ====
section
/-! SUPPORT. The fields of STATUS under the updates the block makes, in terms of the accessors `statusFault`,
`statusValid` and `statusRc`. -/

namespace Sys2Proof.Machine

@[simp] theorem statusFault_setRc (rc : BitVec 4) (w : Word) : statusFault (setRc rc w) = statusFault w := by
  simp [statusFault, setRc]

@[simp] theorem statusFault_setFault (w : Word) : statusFault (setFault w) = true := by
  simp [statusFault, setFault]

@[simp] theorem statusFault_setValid (w : Word) : statusFault (setValid w) = statusFault w := by
  simp [statusFault, setValid]

@[simp] theorem statusValid_setRc (rc : BitVec 4) (w : Word) : statusValid (setRc rc w) = statusValid w := by
  simp [statusValid, setRc]

@[simp] theorem statusValid_setFault (w : Word) : statusValid (setFault w) = statusValid w := by
  simp [statusValid, setFault]

@[simp] theorem statusValid_setValid (w : Word) : statusValid (setValid w) = true := by
  simp [statusValid, setValid]

@[simp] theorem statusRc_setRc (rc : BitVec 4) (w : Word) : statusRc (setRc rc w) = rc := by
  ext i hi
  interval_cases i <;> simp [statusRc, setRc, BitVec.getLsbD_eq_getElem]

@[simp] theorem statusRc_setFault (w : Word) : statusRc (setFault w) = statusRc w := by
  ext i hi
  interval_cases i <;> simp [statusRc, setFault]

@[simp] theorem statusRc_setValid (w : Word) : statusRc (setValid w) = statusRc w := by
  ext i hi
  interval_cases i <;> simp [statusRc, setValid]

/-- The reserved bits of STATUS stay as they are. -/
theorem reserved_setRc (rc : BitVec 4) (w : Word) : setRc rc w &&& ~~~statusMask = w &&& ~~~statusMask := by
  ext i hi
  interval_cases i <;> simp [setRc, statusMask]

theorem reserved_setFault (w : Word) : setFault w &&& ~~~statusMask = w &&& ~~~statusMask := by
  ext i hi
  interval_cases i <;> simp [setFault, statusMask]

theorem reserved_setValid (w : Word) : setValid w &&& ~~~statusMask = w &&& ~~~statusMask := by
  ext i hi
  interval_cases i <;> simp [setValid, statusMask]

theorem causeCode_ne_zero (c : Cause) : causeCode c ≠ 0#32 := by cases c <;> decide

theorem causeCode_toNat_le (c : Cause) : (causeCode c).toNat ≤ 5 := by cases c <;> decide

theorem causeCode_injective {c d : Cause} (h : causeCode c = causeCode d) : c = d := by
  cases c <;> cases d <;> first | rfl | exact absurd h (by decide)

end Sys2Proof.Machine
end

