-- ==== Sys2Proof/Laws/State.lean ====
section
/-! SUPPORT. One lemma per field for each named update of the state (success and error result, fault entry, reset), so
that no later proof unfolds them; then the fields of STATUS and the element reads under those updates. -/

namespace Sys2Proof.Machine

@[simp] theorem State.withRc_cmd (s : State) (rc : ResultCode) : (s.withRc rc).cmd = s.cmd := rfl
@[simp] theorem State.withRc_status (s : State) (rc : ResultCode) : (s.withRc rc).status = setRc (rcCode rc) s.status := rfl
@[simp] theorem State.withRc_cause (s : State) (rc : ResultCode) : (s.withRc rc).cause = s.cause := rfl
@[simp] theorem State.withRc_a0 (s : State) (rc : ResultCode) : (s.withRc rc).a0 = s.a0 := rfl
@[simp] theorem State.withRc_a1 (s : State) (rc : ResultCode) : (s.withRc rc).a1 = s.a1 := rfl
@[simp] theorem State.withRc_a2 (s : State) (rc : ResultCode) : (s.withRc rc).a2 = s.a2 := rfl
@[simp] theorem State.withRc_r0 (s : State) (rc : ResultCode) : (s.withRc rc).r0 = s.r0 := rfl
@[simp] theorem State.withRc_r1 (s : State) (rc : ResultCode) : (s.withRc rc).r1 = s.r1 := rfl
@[simp] theorem State.withRc_r2 (s : State) (rc : ResultCode) : (s.withRc rc).r2 = s.r2 := rfl
@[simp] theorem State.withRc_width (s : State) (rc : ResultCode) : (s.withRc rc).width = s.width := rfl
@[simp] theorem State.withRc_height (s : State) (rc : ResultCode) : (s.withRc rc).height = s.height := rfl
@[simp] theorem State.withRc_side (s : State) (rc : ResultCode) : (s.withRc rc).side = s.side := rfl
@[simp] theorem State.withRc_tcols (s : State) (rc : ResultCode) : (s.withRc rc).tcols = s.tcols := rfl
@[simp] theorem State.withRc_trows (s : State) (rc : ResultCode) : (s.withRc rc).trows = s.trows := rfl
@[simp] theorem State.withRc_tcount (s : State) (rc : ResultCode) : (s.withRc rc).tcount = s.tcount := rfl
@[simp] theorem State.withRc_tlen (s : State) (rc : ResultCode) : (s.withRc rc).tlen = s.tlen := rfl
@[simp] theorem State.withRc_nelem (s : State) (rc : ResultCode) : (s.withRc rc).nelem = s.nelem := rfl
@[simp] theorem State.withRc_src (s : State) (rc : ResultCode) : (s.withRc rc).src = s.src := rfl
@[simp] theorem State.withRc_dst (s : State) (rc : ResultCode) : (s.withRc rc).dst = s.dst := rfl
@[simp] theorem State.withRc_cap (s : State) (rc : ResultCode) : (s.withRc rc).cap = s.cap := rfl
@[simp] theorem State.withRc_epoch (s : State) (rc : ResultCode) : (s.withRc rc).epoch = s.epoch := rfl
@[simp] theorem State.withRc_inbox (s : State) (rc : ResultCode) : (s.withRc rc).inbox = s.inbox := rfl
@[simp] theorem State.withRc_replies (s : State) (rc : ResultCode) : (s.withRc rc).replies = s.replies := rfl

@[simp] theorem State.enterFault_cmd (s : State) (c : Cause) : (s.enterFault c).cmd = s.cmd := rfl
@[simp] theorem State.enterFault_status (s : State) (c : Cause) :
    (s.enterFault c).status = setRc (rcCode .fault) (setFault s.status) := rfl
@[simp] theorem State.enterFault_cause (s : State) (c : Cause) : (s.enterFault c).cause = causeCode c := rfl
@[simp] theorem State.enterFault_a0 (s : State) (c : Cause) : (s.enterFault c).a0 = s.a0 := rfl
@[simp] theorem State.enterFault_a1 (s : State) (c : Cause) : (s.enterFault c).a1 = s.a1 := rfl
@[simp] theorem State.enterFault_a2 (s : State) (c : Cause) : (s.enterFault c).a2 = s.a2 := rfl
@[simp] theorem State.enterFault_r0 (s : State) (c : Cause) : (s.enterFault c).r0 = s.r0 := rfl
@[simp] theorem State.enterFault_r1 (s : State) (c : Cause) : (s.enterFault c).r1 = s.r1 := rfl
@[simp] theorem State.enterFault_r2 (s : State) (c : Cause) : (s.enterFault c).r2 = s.r2 := rfl
@[simp] theorem State.enterFault_width (s : State) (c : Cause) : (s.enterFault c).width = s.width := rfl
@[simp] theorem State.enterFault_height (s : State) (c : Cause) : (s.enterFault c).height = s.height := rfl
@[simp] theorem State.enterFault_side (s : State) (c : Cause) : (s.enterFault c).side = s.side := rfl
@[simp] theorem State.enterFault_tcols (s : State) (c : Cause) : (s.enterFault c).tcols = s.tcols := rfl
@[simp] theorem State.enterFault_trows (s : State) (c : Cause) : (s.enterFault c).trows = s.trows := rfl
@[simp] theorem State.enterFault_tcount (s : State) (c : Cause) : (s.enterFault c).tcount = s.tcount := rfl
@[simp] theorem State.enterFault_tlen (s : State) (c : Cause) : (s.enterFault c).tlen = s.tlen := rfl
@[simp] theorem State.enterFault_nelem (s : State) (c : Cause) : (s.enterFault c).nelem = s.nelem := rfl
@[simp] theorem State.enterFault_src (s : State) (c : Cause) : (s.enterFault c).src = s.src := rfl
@[simp] theorem State.enterFault_dst (s : State) (c : Cause) : (s.enterFault c).dst = s.dst := rfl
@[simp] theorem State.enterFault_cap (s : State) (c : Cause) : (s.enterFault c).cap = s.cap := rfl
@[simp] theorem State.enterFault_epoch (s : State) (c : Cause) : (s.enterFault c).epoch = s.epoch := rfl
@[simp] theorem State.enterFault_inbox (s : State) (c : Cause) : (s.enterFault c).inbox = s.inbox := rfl
@[simp] theorem State.enterFault_replies (s : State) (c : Cause) : (s.enterFault c).replies = s.replies := rfl

@[simp] theorem applyReset_cmd (s : State) : (applyReset s).cmd = 0#32 := rfl
@[simp] theorem applyReset_status (s : State) : (applyReset s).status = 0#32 := rfl
@[simp] theorem applyReset_cause (s : State) : (applyReset s).cause = 0#32 := rfl
@[simp] theorem applyReset_a0 (s : State) : (applyReset s).a0 = 0#32 := rfl
@[simp] theorem applyReset_a1 (s : State) : (applyReset s).a1 = 0#32 := rfl
@[simp] theorem applyReset_a2 (s : State) : (applyReset s).a2 = 0#32 := rfl
@[simp] theorem applyReset_r0 (s : State) : (applyReset s).r0 = 0#32 := rfl
@[simp] theorem applyReset_r1 (s : State) : (applyReset s).r1 = 0#32 := rfl
@[simp] theorem applyReset_r2 (s : State) : (applyReset s).r2 = 0#32 := rfl
@[simp] theorem applyReset_width (s : State) : (applyReset s).width = 0#32 := rfl
@[simp] theorem applyReset_height (s : State) : (applyReset s).height = 0#32 := rfl
@[simp] theorem applyReset_side (s : State) : (applyReset s).side = 0#32 := rfl
@[simp] theorem applyReset_tcols (s : State) : (applyReset s).tcols = 0#32 := rfl
@[simp] theorem applyReset_trows (s : State) : (applyReset s).trows = 0#32 := rfl
@[simp] theorem applyReset_tcount (s : State) : (applyReset s).tcount = 0#32 := rfl
@[simp] theorem applyReset_tlen (s : State) : (applyReset s).tlen = 0#32 := rfl
@[simp] theorem applyReset_nelem (s : State) : (applyReset s).nelem = 0#32 := rfl
@[simp] theorem applyReset_src (s : State) : (applyReset s).src = [] := rfl
@[simp] theorem applyReset_dst (s : State) : (applyReset s).dst = [] := rfl
@[simp] theorem applyReset_cap (s : State) : (applyReset s).cap = s.cap := rfl
@[simp] theorem applyReset_epoch (s : State) : (applyReset s).epoch = s.epoch + 1 := rfl
@[simp] theorem applyReset_inbox (s : State) : (applyReset s).inbox = s.inbox := rfl
@[simp] theorem applyReset_replies (s : State) : (applyReset s).replies = s.replies := rfl

@[simp] theorem State.withRc_faulted (s : State) (rc : ResultCode) : (s.withRc rc).faulted = s.faulted := by
  simp [State.faulted]

@[simp] theorem State.withRc_valid (s : State) (rc : ResultCode) : (s.withRc rc).valid = s.valid := by
  simp [State.valid]

@[simp] theorem State.withRc_rc (s : State) (rc : ResultCode) : (s.withRc rc).rc = rcCode rc := by
  simp [State.rc]

@[simp] theorem State.withRc_srcElem (s : State) (rc : ResultCode) (i : Nat) :
    (s.withRc rc).srcElem i = s.srcElem i := rfl

@[simp] theorem State.withRc_dstElem (s : State) (rc : ResultCode) (i : Nat) :
    (s.withRc rc).dstElem i = s.dstElem i := rfl

@[simp] theorem State.enterFault_faulted (s : State) (c : Cause) : (s.enterFault c).faulted = true := by
  simp [State.faulted]

@[simp] theorem State.enterFault_valid (s : State) (c : Cause) : (s.enterFault c).valid = s.valid := by
  simp [State.valid]

@[simp] theorem State.enterFault_rc (s : State) (c : Cause) : (s.enterFault c).rc = 2#4 := by
  simp [State.rc, rcCode]

@[simp] theorem State.enterFault_srcElem (s : State) (c : Cause) (i : Nat) :
    (s.enterFault c).srcElem i = s.srcElem i := rfl

@[simp] theorem State.enterFault_dstElem (s : State) (c : Cause) (i : Nat) :
    (s.enterFault c).dstElem i = s.dstElem i := rfl

@[simp] theorem applyReset_faulted (s : State) : (applyReset s).faulted = false := by
  simp [State.faulted, statusFault]

@[simp] theorem applyReset_valid (s : State) : (applyReset s).valid = false := by
  simp [State.valid, statusValid]

@[simp] theorem applyReset_rc (s : State) : (applyReset s).rc = 0#4 := by
  simp [State.rc, statusRc]

end Sys2Proof.Machine
end

