-- ==== Sys2Proof/Laws/Exec.lean ====
section
/-! SUPPORT. What a command can do, said once: it raises one of its causes, or fails with DimensionMismatch, or makes
the writes of its rule and sets RC to 0 (60_exceptions.md R180). -/

namespace Sys2Proof.Machine

/-- The causes a command can raise (60_exceptions.md R192, R193). -/
def causesOf : Instr → List Cause
  | .ilv => [.domainViolation]
  | .dlv => []
  | .side => [.zeroDimension]
  | .build => [.zeroDimension, .badIndex]
  | .tmap | .tinv | .tile | .getm | .getxy => [.noLayout, .badIndex]
  | .put => [.badIndex]

/-- The writes of a successful command but RC, and the tests that have passed. -/
def CommandEffect : Instr → State → State → Prop
  | .ilv, s, u => inDomain s.a0 = true ∧ inDomain s.a1 = true ∧
      u = { s with r0 := interleave (coordOf s.a0) (coordOf s.a1) }
  | .dlv, s, u =>
      u = { s with r0 := wordOfCoord (deinterleave s.a0).1, r1 := wordOfCoord (deinterleave s.a0).2 }
  | .side, s, u => s.arg0 ≠ 0 ∧ s.arg1 ≠ 0 ∧ u = { s with r0 := wordOf (tileSide s.arg0 s.arg1) }
  | .build, s, u => s.arg2 = s.arg0 * s.arg1 ∧ s.arg0 ≠ 0 ∧ s.arg1 ≠ 0 ∧ s.arg2 ≤ s.cap.toNat ∧ u = s.built
  | .tmap, s, u => s.valid = true ∧ s.argsInGrid = true ∧
      u = { s with r0 := wordOf (s.tmap s.arg0 s.arg1).d, r1 := wordOf (s.tmap s.arg0 s.arg1).t,
                   r2 := wordOf (s.tmap s.arg0 s.arg1).m }
  | .tinv, s, u => s.valid = true ∧ s.argIsOffset = true ∧
      u = { s with r0 := wordOf (s.tinv s.arg0).x, r1 := wordOf (s.tinv s.arg0).y, r2 := wordOf (s.tinv s.arg0).t }
  | .tile, s, u => s.valid = true ∧ s.argIsTile = true ∧
      u = { s with r0 := wordOf (s.arg0 * s.tlen.toNat), r1 := wordOf (s.arg0 % s.tcols.toNat),
                   r2 := wordOf (s.arg0 / s.tcols.toNat) }
  | .getm, s, u => s.valid = true ∧ s.argIsTile = true ∧ s.argIsTileElem = true ∧
      s.arg0 * s.tlen.toNat + s.arg1 < s.cap.toNat ∧
      u = { s with r0 := s.dstElem (s.arg0 * s.tlen.toNat + s.arg1) }
  | .getxy, s, u => s.valid = true ∧ s.argsInGrid = true ∧ (s.tmap s.arg0 s.arg1).d < s.cap.toNat ∧
      u = { s with r0 := s.dstElem (s.tmap s.arg0 s.arg1).d }
  | .put, s, u => s.argIsSrcIndex = true ∧ u = { s with src := s.src.write s.arg0 s.a1 }

/-- Every way a command answers a next state. -/
theorem exec_next_cases {i : Instr} {s t : State} (h : exec i s = .next t) :
    (∃ c ∈ causesOf i, t = s.enterFault c) ∨
    (i = .build ∧ s.arg2 ≠ s.arg0 * s.arg1 ∧ t = s.withRc .dimensionMismatch) ∨
    (∃ u, CommandEffect i s u ∧ t = u.withRc .ok) := by
  cases i
  case ilv =>
    simp only [exec, execIlv, raiseFault, succeed] at h
    split at h <;> cases h
    · exact .inl ⟨_, by simp [causesOf], rfl⟩
    · rename_i hd; exact .inr (.inr ⟨_, by simpa [CommandEffect] using hd, rfl⟩)
  case dlv =>
    simp only [exec, execDlv, succeed] at h
    cases h; exact .inr (.inr ⟨_, rfl, rfl⟩)
  case side =>
    simp only [exec, execSide, raiseFault, succeed] at h
    split at h <;> cases h
    · exact .inl ⟨_, by simp [causesOf], rfl⟩
    · rename_i hd; exact .inr (.inr ⟨_, by simpa [CommandEffect] using hd, rfl⟩)
  case build =>
    simp only [exec, execBuild, raiseFault, failDimensionMismatch, succeed] at h
    split at h
    · cases h; rename_i hd; exact .inr (.inl ⟨rfl, hd, rfl⟩)
    · split at h
      · cases h; exact .inl ⟨_, by simp [causesOf], rfl⟩
      · split at h <;> cases h
        · exact .inl ⟨.badIndex, by simp [causesOf], rfl⟩
        · rename_i hl hz hc
          exact .inr (.inr ⟨_, by simpa [CommandEffect, and_assoc] using And.intro (not_not.1 hl) (And.intro (not_or.1 hz) hc), rfl⟩)
  case tmap =>
    simp only [exec, execTmap, raiseFault, succeed] at h
    split at h
    · cases h; exact .inl ⟨_, by simp [causesOf], rfl⟩
    · split at h <;> cases h
      · exact .inl ⟨.badIndex, by simp [causesOf], rfl⟩
      · rename_i hv hd; exact .inr (.inr ⟨_, by simpa [CommandEffect] using And.intro hv hd, rfl⟩)
  case tinv =>
    simp only [exec, execTinv, raiseFault, succeed] at h
    split at h
    · cases h; exact .inl ⟨_, by simp [causesOf], rfl⟩
    · split at h <;> cases h
      · exact .inl ⟨.badIndex, by simp [causesOf], rfl⟩
      · rename_i hv hd; exact .inr (.inr ⟨_, by simpa [CommandEffect] using And.intro hv hd, rfl⟩)
  case tile =>
    simp only [exec, execTile, raiseFault, succeed] at h
    split at h
    · cases h; exact .inl ⟨_, by simp [causesOf], rfl⟩
    · split at h <;> cases h
      · exact .inl ⟨.badIndex, by simp [causesOf], rfl⟩
      · rename_i hv hd; exact .inr (.inr ⟨_, by simpa [CommandEffect] using And.intro hv hd, rfl⟩)
  case getm =>
    simp only [exec, execGetm, raiseFault, succeed, loadDst] at h
    split at h
    · cases h; exact .inl ⟨_, by simp [causesOf], rfl⟩
    · split at h
      · cases h; exact .inl ⟨.badIndex, by simp [causesOf], rfl⟩
      · split at h <;> cases h
        rename_i hv hd hc
        exact .inr (.inr ⟨_, by simpa [CommandEffect, and_assoc] using And.intro hv (And.intro hd hc), rfl⟩)
  case getxy =>
    simp only [exec, execGetxy, raiseFault, succeed, loadDst] at h
    split at h
    · cases h; exact .inl ⟨_, by simp [causesOf], rfl⟩
    · split at h
      · cases h; exact .inl ⟨.badIndex, by simp [causesOf], rfl⟩
      · split at h <;> cases h
        rename_i hv hd hc
        exact .inr (.inr ⟨_, by simpa [CommandEffect] using And.intro hv (And.intro hd hc), rfl⟩)
  case put =>
    simp only [exec, execPut, raiseFault, succeed] at h
    split at h <;> cases h
    · exact .inl ⟨_, by simp [causesOf], rfl⟩
    · rename_i hd; exact .inr (.inr ⟨_, by simpa [CommandEffect] using hd, rfl⟩)

/-- A command whose tests pass succeeds with the writes of its rule. -/
theorem exec_of_effect {i : Instr} {s u : State} (h : CommandEffect i s u) : exec i s = .next (u.withRc .ok) := by
  cases i
  case ilv => obtain ⟨h0, h1, rfl⟩ := h; simp [exec, execIlv, succeed, h0, h1]
  case dlv => obtain rfl := h; rfl
  case side => obtain ⟨h0, h1, rfl⟩ := h; simp [exec, execSide, succeed, h0, h1]
  case build =>
    obtain ⟨hl, h0, h1, hc, rfl⟩ := h
    rw [exec, execBuild, if_neg (not_not.2 hl), if_neg (not_or.2 ⟨h0, h1⟩), if_neg (not_lt.2 hc), succeed]
  case tmap => obtain ⟨hv, hd, rfl⟩ := h; simp [exec, execTmap, succeed, hv, hd]
  case tinv => obtain ⟨hv, hd, rfl⟩ := h; simp [exec, execTinv, succeed, hv, hd]
  case tile => obtain ⟨hv, hd, rfl⟩ := h; simp [exec, execTile, succeed, hv, hd]
  case getm => obtain ⟨hv, hd, he, hc, rfl⟩ := h; simp [exec, execGetm, succeed, loadDst, hv, hd, he, hc]
  case getxy => obtain ⟨hv, hd, hc, rfl⟩ := h; simp [exec, execGetxy, succeed, loadDst, hv, hd, hc]
  case put => obtain ⟨hd, rfl⟩ := h; simp [exec, execPut, succeed, hd]

/-- A command stops only by a DST read at an index of CAP or more, and is never refused. -/
theorem exec_stops_only_outside_cap {i : Instr} {s : State} :
    (∃ t, exec i s = .next t) ∨
    (exec i s = .fault (.noSuchElement .dst) ∧ s.valid = true ∧
      ((i = .getm ∧ s.argIsTile = true ∧ s.argIsTileElem = true ∧
          s.cap.toNat ≤ s.arg0 * s.tlen.toNat + s.arg1) ∨
       (i = .getxy ∧ s.argsInGrid = true ∧ s.cap.toNat ≤ (s.tmap s.arg0 s.arg1).d))) := by
  cases i
  case dlv => exact .inl ⟨_, rfl⟩
  case ilv => simp only [exec, execIlv, raiseFault, succeed]; split <;> exact .inl ⟨_, rfl⟩
  case side => simp only [exec, execSide, raiseFault, succeed]; split <;> exact .inl ⟨_, rfl⟩
  case put => simp only [exec, execPut, raiseFault, succeed]; split <;> exact .inl ⟨_, rfl⟩
  case build =>
    simp only [exec, execBuild, raiseFault, failDimensionMismatch, succeed]
    split
    · exact .inl ⟨_, rfl⟩
    · split
      · exact .inl ⟨_, rfl⟩
      · split <;> exact .inl ⟨_, rfl⟩
  case tmap =>
    simp only [exec, execTmap, raiseFault, succeed]
    split
    · exact .inl ⟨_, rfl⟩
    · split <;> exact .inl ⟨_, rfl⟩
  case tinv =>
    simp only [exec, execTinv, raiseFault, succeed]
    split
    · exact .inl ⟨_, rfl⟩
    · split <;> exact .inl ⟨_, rfl⟩
  case tile =>
    simp only [exec, execTile, raiseFault, succeed]
    split
    · exact .inl ⟨_, rfl⟩
    · split <;> exact .inl ⟨_, rfl⟩
  case getm =>
    simp only [exec, execGetm, raiseFault, succeed, loadDst]
    split
    · exact .inl ⟨_, rfl⟩
    · split
      · exact .inl ⟨_, rfl⟩
      · split
        · exact .inl ⟨_, rfl⟩
        · rename_i hv hd hc
          simp only [Bool.not_eq_true', Bool.not_eq_false, Bool.and_eq_true] at hv hd
          exact .inr ⟨rfl, hv, .inl ⟨trivial, hd.1, hd.2, not_lt.1 hc⟩⟩
  case getxy =>
    simp only [exec, execGetxy, raiseFault, succeed, loadDst]
    split
    · exact .inl ⟨_, rfl⟩
    · split
      · exact .inl ⟨_, rfl⟩
      · split
        · exact .inl ⟨_, rfl⟩
        · rename_i hv hd hc
          simp only [Bool.not_eq_true', Bool.not_eq_false] at hv hd
          exact .inr ⟨rfl, hv, .inr ⟨trivial, hd, not_lt.1 hc⟩⟩

end Sys2Proof.Machine
end

