-- ==== Sys2Proof/Laws/Memory.lean ====
section
/-! SUPPORT. The element memories: read after write, the canonical form kept, and that memories in canonical form
which read alike are equal. -/

namespace Sys2Proof.Machine

@[simp] theorem Memory.read_nil (i : Nat) : Memory.read [] i = none := rfl

theorem Memory.read_cons (j : Nat) (u : Word) (m : Memory) (i : Nat) :
    Memory.read ((j, u) :: m) i = if i = j then some u else Memory.read m i := rfl

/-- A read after a write: the value written at the index written, every other index as before. -/
@[simp] theorem Memory.read_write (m : Memory) (i k : Nat) (v : Word) :
    Memory.read (Memory.write m i v) k = if k = i then some v else Memory.read m k := by
  induction m with
  | nil => rfl
  | cons p m ih =>
    obtain ⟨j, u⟩ := p
    simp only [Memory.write]
    split
    · simp [Memory.read_cons]
    · split
      · subst i; simp only [Memory.read_cons]; split <;> rfl
      · simp only [Memory.read_cons, ih]
        split
        · rw [if_neg (by omega)]
        · rfl

theorem Memory.mem_write {m : Memory} {i : Nat} {v : Word} {p : Nat × Word}
    (h : p ∈ Memory.write m i v) : p = (i, v) ∨ p ∈ m := by
  induction m with
  | nil => simpa [Memory.write] using h
  | cons q m ih =>
    obtain ⟨j, u⟩ := q
    simp only [Memory.write] at h
    split at h
    · simpa using h
    · split at h
      · rcases List.mem_cons.1 h with h | h
        · exact .inl h
        · exact .inr (List.mem_cons_of_mem _ h)
      · rcases List.mem_cons.1 h with h | h
        · exact .inr (by simp [h])
        · rcases ih h with h | h
          · exact .inl h
          · exact .inr (List.mem_cons_of_mem _ h)

/-- A write keeps the canonical form. -/
theorem Memory.wf_write {m : Memory} (i : Nat) (v : Word) (h : Memory.wf m) : Memory.wf (Memory.write m i v) := by
  induction m with
  | nil => simp [Memory.write, Memory.wf]
  | cons q m ih =>
    obtain ⟨j, u⟩ := q
    have hm := List.pairwise_cons.1 h
    simp only [Memory.write]
    split
    · rename_i hij
      refine List.pairwise_cons.2 ⟨fun p hp => ?_, h⟩
      rcases List.mem_cons.1 hp with rfl | hp
      · exact hij
      · exact Nat.lt_trans hij (hm.1 p hp)
    · split
      · subst i; exact List.pairwise_cons.2 ⟨hm.1, hm.2⟩
      · refine List.pairwise_cons.2 ⟨fun p hp => ?_, ih hm.2⟩
        rcases Memory.mem_write hp with rfl | hp
        · show j < i; omega
        · exact hm.1 p hp

theorem Memory.read_eq_none_of_lt {m : Memory} {i : Nat} (h : ∀ p ∈ m, i < p.1) : Memory.read m i = none := by
  induction m with
  | nil => rfl
  | cons q m ih =>
    obtain ⟨j, u⟩ := q
    have hj : i < j := h (j, u) (by simp)
    rw [Memory.read_cons, if_neg (by omega)]
    exact ih fun p hp => h p (List.mem_cons_of_mem _ hp)

/-- Memories in canonical form that read alike at every index are equal. -/
theorem Memory.ext_of_wf {m m' : Memory} (h : Memory.wf m) (h' : Memory.wf m')
    (hr : ∀ i, Memory.read m i = Memory.read m' i) : m = m' := by
  induction m generalizing m' with
  | nil =>
    cases m' with
    | nil => rfl
    | cons q m' => have := hr q.1; simp [Memory.read] at this
  | cons p m ih =>
    obtain ⟨j, u⟩ := p
    have hm := List.pairwise_cons.1 h
    cases m' with
    | nil => have := hr j; simp [Memory.read] at this
    | cons q m' =>
      obtain ⟨k, v⟩ := q
      have hm' := List.pairwise_cons.1 h'
      have hjk : j = k := by
        have h1 := hr j
        have h2 := hr k
        simp only [Memory.read_cons, if_pos] at h1 h2
        by_contra hne
        rw [if_neg hne] at h1
        rw [if_neg (Ne.symm hne)] at h2
        rcases Nat.lt_or_gt_of_ne hne with hlt | hlt
        · rw [Memory.read_eq_none_of_lt fun p hp => Nat.lt_trans hlt (hm'.1 p hp)] at h1
          simp at h1
        · rw [Memory.read_eq_none_of_lt fun p hp => Nat.lt_trans hlt (hm.1 p hp)] at h2
          simp at h2
      subst hjk
      have huv : u = v := by simpa [Memory.read_cons] using hr j
      subst huv
      congr 1
      refine ih hm.2 hm'.2 fun i => ?_
      have := hr i
      simp only [Memory.read_cons] at this
      by_cases hij : i = j
      · subst hij
        rw [Memory.read_eq_none_of_lt hm.1, Memory.read_eq_none_of_lt hm'.1]
      · simpa [hij] using this

end Sys2Proof.Machine
end

