-- ==== Sys2Proof/Laws/PerInstr.lean ====
section
/-! SUPPORT. Statements made of every command as syntax, one lemma per constructor. -/

namespace Sys2Proof.Laws.ZeroField

/-- The command word of a command has the field ZERO at 0 (30_encoding.md R87), and its opcode names the command. -/
def Statement (i : Instr) : Prop := zeroField (encode i) = 0#24 ∧ instrOfOpcode (opField (encode i)) = some i

theorem ilv : Statement .ilv := by unfold Statement; decide
theorem dlv : Statement .dlv := by unfold Statement; decide
theorem side : Statement .side := by unfold Statement; decide
theorem build : Statement .build := by unfold Statement; decide
theorem tmap : Statement .tmap := by unfold Statement; decide
theorem tinv : Statement .tinv := by unfold Statement; decide
theorem tile : Statement .tile := by unfold Statement; decide
theorem getm : Statement .getm := by unfold Statement; decide
theorem getxy : Statement .getxy := by unfold Statement; decide
theorem put : Statement .put := by unfold Statement; decide

end Sys2Proof.Laws.ZeroField
end

