-- ==== Sys2Proof/Laws/Step.lean ====
section
/-! SUPPORT. What a step can do, said once (30_encoding.md R82 to R86, 70_reset_and_hazards.md R210). -/

namespace Sys2Proof.Machine

@[simp] theorem step_of_inbox_nil {s : State} (h : s.inbox = []) : step s = .next s := by
  rw [step, serveNext, h]

theorem step_of_inbox_cons {s : State} {e : HostEvent} {rest : List HostEvent} (h : s.inbox = e :: rest) :
    step s = serveEvent e { s with inbox := rest } := by
  rw [step, serveNext, h]

/-- What a write to a register other than CMD does (R83). -/
theorem portStore_cases (s : State) (n : RegNum) (v : Word) :
    portStore s n v = s ∨ portStore s n v = { s with a0 := v } ∨ portStore s n v = { s with a1 := v } ∨
      portStore s n v = { s with a2 := v } := by
  simp only [portStore]
  split <;> simp

/-- What a written command word does (R84). -/
theorem runCommand_cases (w : Word) (s : State) :
    (∃ e, decode w = .error e ∧ runCommand w s = .next (State.enterFault { s with cmd := w } .illegalCommand)) ∨
    (∃ i, decode w = .ok i ∧ runCommand w s = exec i { s with cmd := w }) := by
  simp only [runCommand, raiseFault]
  split
  · rename_i e he; exact .inl ⟨e, he, rfl⟩
  · rename_i i hi; exact .inr ⟨i, hi, rfl⟩

/-- What a write by the host does (R83, R84, R86). -/
theorem hostWrite_cases (n : RegNum) (v : Word) (s : State) :
    (s.faulted = true ∧ hostWrite n v s = .next s) ∨
    (s.faulted = false ∧ n ≠ 0#6 ∧ hostWrite n v s = .next (portStore s n v)) ∨
    (s.faulted = false ∧ n = 0#6 ∧ hostWrite n v s = runCommand v s) := by
  simp only [hostWrite]
  split
  · rename_i h; exact .inl ⟨h, rfl⟩
  · rename_i h
    have hf : s.faulted = false := by simpa using h
    split
    · rename_i hn; exact .inr (.inr ⟨hf, hn, rfl⟩)
    · rename_i hn; exact .inr (.inl ⟨hf, hn, rfl⟩)

/-- What the next event's service can do, whether it comes by register number or by byte offset; `s` is the state with
the event taken from the inbox. -/
theorem serveEvent_cases (e : HostEvent) (s : State) :
    (e = .reset ∧ serveEvent e s = .next (applyReset s)) ∨
    (∃ n, serveEvent e s = .next { s with replies := s.replies ++ [portValue s n] }) ∨
    (e ≠ .reset ∧ s.faulted = true ∧ serveEvent e s = .next s) ∨
    (e ≠ .reset ∧ s.faulted = false ∧ ∃ n v, n ≠ 0#6 ∧ serveEvent e s = .next (portStore s n v)) ∨
    (s.faulted = false ∧ ∃ w, commandWord e = some w ∧ serveEvent e s = runCommand w s) ∨
    (e.wf = false ∧ serveEvent e s = .refused .partialAccess) := by
  cases e with
  | reset => exact .inl ⟨rfl, rfl⟩
  | hostRead n => exact .inr (.inl ⟨n, rfl⟩)
  | hostWrite n v =>
    rcases hostWrite_cases n v s with ⟨hf, he⟩ | ⟨hf, hn, he⟩ | ⟨hf, hn, he⟩
    · exact .inr (.inr (.inl ⟨by simp, hf, he⟩))
    · exact .inr (.inr (.inr (.inl ⟨by simp, hf, n, v, hn, he⟩)))
    · exact .inr (.inr (.inr (.inr (.inl ⟨hf, v, by simp [commandWord, hn], he⟩))))
  | windowAccess offset bytes data =>
    by_cases hw : (wholeRegister bytes && alignedOffset offset) = true
    · cases data with
      | none => exact .inr (.inl ⟨numberAtOffset offset, by simp [serveEvent, hw, hostRead]⟩)
      | some v =>
        have hs : serveEvent (.windowAccess offset bytes (some v)) s = hostWrite (numberAtOffset offset) v s := by
          simp [serveEvent, hw]
        rw [hs]
        rcases hostWrite_cases (numberAtOffset offset) v s with ⟨hf, he⟩ | ⟨hf, hn, he⟩ | ⟨hf, hn, he⟩
        · exact .inr (.inr (.inl ⟨by simp, hf, he⟩))
        · exact .inr (.inr (.inr (.inl ⟨by simp, hf, _, v, hn, he⟩)))
        · exact .inr (.inr (.inr (.inr (.inl ⟨hf, v, by simp only [commandWord, if_pos (And.intro hw hn)], he⟩))))
    · have hw' : (wholeRegister bytes && alignedOffset offset) = false := by simpa using hw
      refine .inr (.inr (.inr (.inr (.inr ⟨hw', ?_⟩))))
      simp only [serveEvent, hw']
      rfl

/-- Every way a step answers a next state: idle, reset, an answered read, an ignored write, an argument register
written, an illegal command word, or a command run (and then `exec_next_cases` says the rest). -/
theorem step_next_cases {s t : State} (h : step s = .next t) :
    (s.inbox = [] ∧ t = s) ∨
    ∃ e rest, s.inbox = e :: rest ∧
      ((e = .reset ∧ t = applyReset { s with inbox := rest }) ∨
       (∃ n, t = { s with inbox := rest, replies := s.replies ++ [portValue s n] }) ∨
       (e ≠ .reset ∧ s.faulted = true ∧ t = { s with inbox := rest }) ∨
       (e ≠ .reset ∧ s.faulted = false ∧ ∃ n v, n ≠ 0#6 ∧ t = portStore { s with inbox := rest } n v) ∨
       (s.faulted = false ∧ ∃ w, commandWord e = some w ∧
          ((∀ i, decode w ≠ .ok i) ∧
            t = State.enterFault { s with inbox := rest, cmd := w } .illegalCommand ∨
           ∃ i, decode w = .ok i ∧ exec i { s with inbox := rest, cmd := w } = .next t))) := by
  cases hi : s.inbox with
  | nil => rw [step_of_inbox_nil hi] at h; cases h; exact .inl ⟨rfl, rfl⟩
  | cons e rest =>
    refine .inr ⟨e, rest, rfl, ?_⟩
    rw [step_of_inbox_cons hi] at h
    rcases serveEvent_cases e { s with inbox := rest } with
      ⟨he, hs⟩ | ⟨n, hs⟩ | ⟨he, hf, hs⟩ | ⟨he, hf, n, v, hn, hs⟩ | ⟨hf, w, hw, hs⟩ | ⟨-, hs⟩
    · rw [hs] at h; cases h; exact .inl ⟨he, rfl⟩
    · rw [hs] at h; cases h; exact .inr (.inl ⟨n, rfl⟩)
    · rw [hs] at h; cases h; exact .inr (.inr (.inl ⟨he, hf, rfl⟩))
    · rw [hs] at h; cases h; exact .inr (.inr (.inr (.inl ⟨he, hf, n, v, hn, rfl⟩)))
    · rw [hs] at h
      refine .inr (.inr (.inr (.inr ⟨hf, w, hw, ?_⟩)))
      rcases runCommand_cases w { s with inbox := rest } with ⟨x, hd, hr⟩ | ⟨i, hd, hr⟩
      · rw [hr] at h; cases h; exact .inl ⟨by simp [hd], rfl⟩
      · rw [hr] at h; exact .inr ⟨i, hd, h⟩
    · rw [hs] at h; cases h

/-! Runs of several steps. -/

theorem core_run_succ_next {s t : State} (k : Nat) (h : step s = .next t) : core.run (k + 1) s = core.run k t := by
  have h' : core.step s = .next t := h
  have := Host.Core.run.eq_2 core s k
  rw [h'] at this
  exact this

theorem core_run_zero (s : State) : core.run 0 s = .next s := rfl

theorem core_run_succ_fault {s : State} {f : Fault} (k : Nat) (h : step s = .fault f) : core.run (k + 1) s = .fault f := by
  have h' : core.step s = .fault f := h
  have := Host.Core.run.eq_2 core s k
  rw [h'] at this
  exact this

theorem core_run_succ_refused {s : State} {r : Refusal} (k : Nat) (h : step s = .refused r) :
    core.run (k + 1) s = .refused r := by
  have h' : core.step s = .refused r := h
  have := Host.Core.run.eq_2 core s k
  rw [h'] at this
  exact this

theorem core_run_one (s : State) : core.run 1 s = step s := by
  cases h : step s with
  | next t => exact core_run_succ_next 0 h
  | fault f => exact core_run_succ_fault 0 h
  | refused r => exact core_run_succ_refused 0 h

/-- A run of more than no steps that answers a next state has answered one at its first step. -/
theorem core_run_succ_inv {s t : State} {k : Nat} (h : core.run (k + 1) s = .next t) :
    ∃ u, step s = .next u ∧ core.run k u = .next t := by
  cases hs : step s with
  | next u => exact ⟨u, rfl, (core_run_succ_next k hs).symm.trans h⟩
  | fault f => rw [core_run_succ_fault k hs] at h; cases h
  | refused r => rw [core_run_succ_refused k hs] at h; cases h

/-- What every step keeps holds after a run. -/
theorem core_run_induction {P : State → Prop} (hstep : ∀ s t, P s → step s = .next t → P t) {k : Nat} {s t : State}
    (h0 : P s) (h : core.run k s = .next t) : P t := by
  induction k generalizing s with
  | zero => cases h; exact h0
  | succ k ih => obtain ⟨u, hu, hr⟩ := core_run_succ_inv h; exact ih (hstep s u h0 hu) hr

end Sys2Proof.Machine
end

