-- ==== Sys2Proof/Laws/Tile.lean ====
section
/-! SUPPORT. The side derivation, the local Morton index, the destination offset and the rearrangement pass
(41_tile_rearranger.md R122 to R130). -/

namespace Sys2Proof.Machine

/-- The halving loop, started at `2 ^ k` with `k` halvings or more to make, ends at a power of two no larger than its
start that divides both dimensions (R122, R123). -/
theorem halveUntilDivides_spec (w h fuel k : Nat) (hk : k ≤ fuel) :
    ∃ j, j ≤ k ∧ halveUntilDivides w h fuel (2 ^ k) = 2 ^ j ∧ 2 ^ j ∣ w ∧ 2 ^ j ∣ h := by
  induction fuel generalizing k with
  | zero => obtain rfl : k = 0 := by omega
            exact ⟨0, le_refl _, rfl, by simp, by simp⟩
  | succ fuel ih =>
    simp only [halveUntilDivides]
    split
    · rename_i hnd
      cases k with
      | zero => simp [Nat.mod_one] at hnd
      | succ k =>
        obtain ⟨j, hj, he, hd⟩ := ih k (by omega)
        refine ⟨j, by omega, ?_, hd⟩
        rw [← he, pow_succ, Nat.mul_div_cancel _ (by omega)]
    · rename_i hnd
      push Not at hnd
      exact ⟨k, le_refl _, rfl, Nat.dvd_of_mod_eq_zero hnd.1, Nat.dvd_of_mod_eq_zero hnd.2⟩

/-- The loop of `tileSide` starts at a power of two no larger than 2^16. -/
theorem tileSide_start (w h : Nat) :
    min (2 ^ (min w h).log2) Config.sideMax = 2 ^ min (min w h).log2 16 := by
  rw [Config.sideMax]
  rcases Nat.le_total (min w h).log2 16 with hl | hl
  · rw [Nat.min_eq_left hl, Nat.min_eq_left (Nat.pow_le_pow_right (by omega) hl)]
  · rw [Nat.min_eq_right hl, Nat.min_eq_right (Nat.pow_le_pow_right (by omega) hl)]

/-- The derived side is a power of two, at most 2^16, and divides both dimensions (R120, R122). -/
theorem tileSide_spec (w h : Nat) : ∃ k, k ≤ 16 ∧ tileSide w h = 2 ^ k ∧ 2 ^ k ∣ w ∧ 2 ^ k ∣ h := by
  rw [tileSide, tileSide_start]
  obtain ⟨j, hj, he, hd⟩ := halveUntilDivides_spec w h 16 (min (min w h).log2 16) (by omega)
  exact ⟨j, by omega, he, hd⟩

theorem tileSide_pos (w h : Nat) : 1 ≤ tileSide w h := by
  obtain ⟨k, -, he, -⟩ := tileSide_spec w h
  rw [he]; exact Nat.one_le_two_pow

/-- The local Morton index of coordinates the codec takes (R128). -/
theorem mortonIndex_eq {lx ly : Nat} (hx : lx < 2 ^ 16) (hy : ly < 2 ^ 16) :
    mortonIndex lx ly = spreadBits 16 lx + 2 * spreadBits 16 ly := by
  rw [mortonIndex, interleave_toNat, BitVec.toNat_ofNat, BitVec.toNat_ofNat, Nat.mod_eq_of_lt hx, Nat.mod_eq_of_lt hy]

/-- Coordinates below `2 ^ k` have a Morton index below `4 ^ k` (40_bit_codec.md R109). -/
theorem mortonIndex_lt {k lx ly : Nat} (hk : k ≤ 16) (hx : lx < 2 ^ k) (hy : ly < 2 ^ k) :
    mortonIndex lx ly < 4 ^ k := by
  have hp : 2 ^ k ≤ 2 ^ 16 := Nat.pow_le_pow_right (by omega) hk
  rw [mortonIndex_eq (by omega) (by omega)]
  have := spreadBits_bound_of_lt (n := 16) hx
  have := spreadBits_bound_of_lt (n := 16) hy
  omega

/-- The destination offset as tile base plus local offset (R128, R135). -/
theorem destOffset_eq (w side x y : Nat) :
    destOffset w side x y =
      ((y / side) * (w / side) + x / side) * (side * side) + mortonIndex (x % side) (y % side) := by
  simp only [destOffset]
  ring

/-- One row of the pass, at every index: the element of the last position of the row that lands there, or what was
there before. -/
theorem read_rearrangeRow (s : State) (w side y n : Nat) (dst : Memory) (d : Nat) :
    (∃ x, x < n ∧ destOffset w side x y = d ∧
      Memory.read (rearrangeRow s w side y n dst) d = some (s.srcElem (y * w + x))) ∨
    ((∀ x, x < n → destOffset w side x y ≠ d) ∧
      Memory.read (rearrangeRow s w side y n dst) d = Memory.read dst d) := by
  induction n with
  | zero => exact .inr ⟨fun x hx => by omega, rfl⟩
  | succ n ih =>
    simp only [rearrangeRow, Memory.read_write]
    by_cases hd : d = destOffset w side n y
    · exact .inl ⟨n, by omega, hd.symm, by rw [if_pos hd]⟩
    · rw [if_neg hd]
      rcases ih with ⟨x, hx, he, hr⟩ | ⟨hn, hr⟩
      · exact .inl ⟨x, by omega, he, hr⟩
      · refine .inr ⟨fun x hx => ?_, hr⟩
        rcases Nat.lt_succ_iff_lt_or_eq.1 hx with hx | rfl
        · exact hn x hx
        · exact fun h => hd h.symm

/-- The whole pass, at every index: the element of a position that lands there, or, where none does, what was there
before (R128, R130). -/
theorem read_rearrange (s : State) (w side h : Nat) (dst : Memory) (d : Nat) :
    (∃ x y, x < w ∧ y < h ∧ destOffset w side x y = d ∧
      Memory.read (rearrange s w side h dst) d = some (s.srcElem (y * w + x))) ∨
    ((∀ x y, x < w → y < h → destOffset w side x y ≠ d) ∧
      Memory.read (rearrange s w side h dst) d = Memory.read dst d) := by
  induction h with
  | zero => exact .inr ⟨fun x y _ hy => by omega, rfl⟩
  | succ h ih =>
    simp only [rearrange]
    rcases read_rearrangeRow s w side h w (rearrange s w side h dst) d with ⟨x, hx, he, hr⟩ | ⟨hn, hr⟩
    · exact .inl ⟨x, h, hx, by omega, he, hr⟩
    · rcases ih with ⟨x, y, hx, hy, he, hr'⟩ | ⟨hn', hr'⟩
      · exact .inl ⟨x, y, hx, by omega, he, hr.trans hr'⟩
      · refine .inr ⟨fun x y hx hy => ?_, hr.trans hr'⟩
        rcases Nat.lt_succ_iff_lt_or_eq.1 hy with hy | rfl
        · exact hn' x y hx hy
        · exact hn x hx

/-- A property of memories that every write of the pass keeps, the pass keeps. -/
theorem rearrange_induction {P : Memory → Prop} (s : State) (w side h : Nat) {dst : Memory} (h0 : P dst)
    (hw : ∀ m x y, x < w → y < h → P m → P (m.write (destOffset w side x y) (s.srcElem (y * w + x)))) :
    P (rearrange s w side h dst) := by
  have row : ∀ y, y < h → ∀ n, n ≤ w → ∀ m, P m → P (rearrangeRow s w side y n m) := by
    intro y hy n
    induction n with
    | zero => exact fun _ m hm => hm
    | succ n ih => exact fun hn m hm => hw _ _ _ (by omega) hy (ih (by omega) m hm)
  have all : ∀ k, k ≤ h → P (rearrange s w side k dst) := by
    intro k
    induction k with
    | zero => exact fun _ => h0
    | succ k ih => exact fun hk => row k (by omega) w (le_refl _) _ (ih (by omega))
  exact all h (le_refl _)

/-- The pass keeps the canonical form of the memory it writes. -/
theorem wf_rearrange (s : State) (w side h : Nat) {dst : Memory} (hd : Memory.wf dst) :
    Memory.wf (rearrange s w side h dst) :=
  rearrange_induction s w side h hd fun _ _ _ _ _ => Memory.wf_write _ _

end Sys2Proof.Machine
end

