-- ==== Sys2Proof/Tests/Slice0.lean ====
section
/-! SUPPORT. Tests: expected values are those of 95_test_vectors.md (its section is named at each group) or are
written out from 30_encoding.md by hand; then one witness for the hypotheses of each statement. -/

namespace Sys2Proof.Machine.Test

/-- The state a result goes on from, if any. -/
def next? : Result → Option State
  | .next t => some t
  | .fault _ => none
  | .refused _ => none

/-- R0, R1, R2 and STATUS after a command on arguments. -/
def results (i : Instr) (s : State) (x y : Word) : Option (List Word) :=
  (next? (exec i { s with a0 := x, a1 := y })).map fun t => [t.r0, t.r1, t.r2, t.status]

/-- The state after reset with arguments and pending events. -/
def ready (x y n : Word) (events : List HostEvent) : State :=
  { State.reset with a0 := x, a1 := y, a2 := n, inbox := events }

/-- `w * h` elements loaded, BUILD's arguments in place: element i is 100 + i (95_test_vectors.md section 4.2). -/
def loaded (w h : Nat) (events : List HostEvent) : State :=
  { ready (wordOf w) (wordOf h) (wordOf (w * h)) events with
    src := (List.range (w * h)).map fun i => (i, wordOf (100 + i)) }

/-- The layout of a BUILD from `loaded`. -/
def layout (w h : Nat) (events : List HostEvent) : State := (loaded w h events).built.withRc .ok

/-- A faulted block with no layout. -/
def dead (events : List HostEvent) : State :=
  { State.reset with status := 0x00000021#32, cause := 1#32, a0 := 0x00010000#32, inbox := events }

/-! Well-formedness: an ill-formed term for each check (20_memory.md R64, R65). -/

theorem test_wf_whole_register : wholeRegister 2 = false ∧ (HostEvent.windowAccess 8#8 2 none).wf = false := by decide
theorem test_wf_aligned_offset : alignedOffset 6#8 = false ∧ (HostEvent.windowAccess 6#8 4 none).wf = false := by
  decide
theorem test_wf_partial_access_is_refused :
    step { State.reset with inbox := [.windowAccess 16#8 1 (some 7#32)] } = .refused .partialAccess ∧
    step { State.reset with inbox := [.windowAccess 17#8 4 (some 7#32)] } = .refused .partialAccess := ⟨rfl, rfl⟩

/-! Decoding: ZERO in bits 31:8 and OP in bits 7:0 (30_encoding.md R87, R88), bit by bit; then illegal words (95
section 5). -/

theorem test_decode_codec :
    decode 0b00000000000000000000000000000001#32 = .ok .ilv ∧
    decode 0b00000000000000000000000000000010#32 = .ok .dlv := by decide
theorem test_decode_tile_rearranger :
    decode 0b00000000000000000000000000010000#32 = .ok .side ∧
    decode 0b00000000000000000000000000010001#32 = .ok .build ∧
    decode 0b00000000000000000000000000010010#32 = .ok .tmap ∧
    decode 0b00000000000000000000000000010011#32 = .ok .tinv := by decide
theorem test_decode_layout_access :
    decode 0b00000000000000000000000000010100#32 = .ok .tile ∧
    decode 0b00000000000000000000000000010101#32 = .ok .getm ∧
    decode 0b00000000000000000000000000010110#32 = .ok .getxy ∧
    decode 0b00000000000000000000000000100000#32 = .ok .put := by decide
theorem test_decode_rejects :
    decode 0x00000000#32 = .error .unknownOpcode ∧ decode 0x00000003#32 = .error .unknownOpcode ∧
    decode 0x00000101#32 = .error .zeroFieldSet ∧ decode 0x80000020#32 = .error .zeroFieldSet := by decide
theorem test_table_word : decodeTableWord 32 0x13 = some .tinv ∧ decodeTableWord 32 0x17 = none := by decide
theorem test_fetched_word_runs :
    (next? (step ((ready 3#32 3#32 0#32 []).withFetchWord 32 1))).map (fun t => (t.r0, t.cmd)) =
      some (0x0000000F#32, 0x00000001#32) := by decide

/-! The bit codec (95 sections 2.1 to 2.5). -/

theorem test_ilv : results .ilv State.reset 0x1234#32 0xABCD#32 = some [0x898EA5B2#32, 0#32, 0#32, 0#32] := by
  decide +kernel
theorem test_ilv_does_not_truncate :
    results .ilv State.reset 0x80000001#32 0#32 = some [0#32, 0#32, 0#32, 0x21#32] := by decide +kernel
theorem test_dlv : results .dlv State.reset 0xDEADBEEF#32 0#32 = some [0x0000E36B#32, 0x0000BEFF#32, 0#32, 0#32] := by
  decide +kernel
theorem test_dlv_top_bit : results .dlv State.reset 0x80000000#32 0#32 = some [0#32, 0x00008000#32, 0#32, 0#32] := by
  decide +kernel
theorem test_spread : spread16 0x1234#16 = 0x01040510#32 ∧ spread16 0xABCD#16 = 0x44455051#32 := by decide +kernel
theorem test_compress : compress32 0xDEADBEEF#32 = 0xE36B#16 ∧ compress32 0xFFFFFFFF#32 = 0xFFFF#16 := by
  decide +kernel

/-! SIDE (95 section 3). -/

theorem test_side : results .side State.reset 1920#32 1080#32 = some [8#32, 0#32, 0#32, 0#32] := by decide +kernel
theorem test_side_bounded :
    results .side State.reset 0x80000000#32 0x80000000#32 = some [65536#32, 0#32, 0#32, 0#32] := by decide +kernel

/-! BUILD (95 sections 4.2 and 5): the registers and the permutation of the 6 by 4 grid; the order of the tests. -/

theorem test_build_registers :
    (next? (exec .build (loaded 6 4 []))).map
        (fun t => [t.width, t.height, t.side, t.tcols, t.trows, t.tcount, t.tlen, t.nelem, t.status]) =
      some [6#32, 4#32, 2#32, 3#32, 2#32, 6#32, 4#32, 24#32, 0x02#32] := by decide +kernel
theorem test_build_elements :
    (layout 6 4 []).dst.map (fun p => p.2.toNat) =
      [100, 101, 106, 107, 102, 103, 108, 109, 104, 105, 110, 111, 112, 113, 118, 119, 114, 115, 120, 121, 116, 117,
       122, 123] := by decide +kernel

/-! The maps and the accesses (95 sections 4.1, 4.2 and 5). -/

theorem test_tmap : results .tmap (layout 4 8 []) 2#32 5#32 = some [22#32, 1#32, 6#32, 0x02#32] := by decide +kernel
theorem test_tmap_at_width : results .tmap (layout 4 8 []) 4#32 0#32 = some [0#32, 0#32, 0#32, 0x23#32] := by
  decide +kernel
theorem test_tinv : results .tinv (layout 6 4 []) 13#32 0#32 = some [1#32, 2#32, 3#32, 0x02#32] := by decide +kernel
theorem test_tinv_at_nelem : results .tinv (layout 4 8 []) 32#32 0#32 = some [0#32, 0#32, 0#32, 0x23#32] := by
  decide +kernel
theorem test_tile : results .tile (layout 6 4 []) 4#32 0#32 = some [16#32, 1#32, 1#32, 0x02#32] := by decide +kernel
theorem test_getm : results .getm (layout 6 4 []) 1#32 2#32 = some [108#32, 0#32, 0#32, 0x02#32] := by decide +kernel
theorem test_getm_at_tlen : results .getm (layout 4 8 []) 0#32 16#32 = some [0#32, 0#32, 0#32, 0x23#32] := by
  decide +kernel
theorem test_getxy : results .getxy (layout 6 4 []) 3#32 0#32 = some [103#32, 0#32, 0#32, 0x02#32] := by
  decide +kernel
theorem test_put :
    (next? (exec .put (ready 1023#32 1#32 0#32 []))).map (fun t => (t.src, t.status)) = some ([(1023, 1#32)], 0#32) := by
  decide +kernel
theorem test_put_at_cap :
    (next? (exec .put (ready 1024#32 1#32 0#32 []))).map (fun t => (t.src, t.status, t.cause)) =
      some ([], 0x21#32, 5#32) := by decide +kernel

/-! The host port (95 section 6) and reset. -/

theorem test_faulted_block_ignores_writes :
    (next? (step (dead [.hostWrite 4#6 7#32]))).map (fun t => t.a0) = some 0x00010000#32 := by decide
theorem test_reserved_number_reads_zero :
    (next? (step (dead [.hostRead 63#6]))).map (fun t => t.replies) = some [0#32] := by decide
theorem test_reset_memory_wf : Memory.wf State.reset.src ∧ Memory.wf State.reset.dst := by decide

/-! The false variants of 95 section 8: P9, a truncating codec; P10, the Morton index of whole-grid coordinates. -/

theorem test_false_variant_truncating_codec :
    ¬ ∃ t, exec .ilv (ready 0x00010000#32 0#32 0#32 []) = .next t ∧ t.rc = 0#4 := by
  rintro ⟨t, h, hr⟩
  have h1 : (next? (exec .ilv (ready 0x00010000#32 0#32 0#32 []))).map State.rc = some 2#4 := by decide +kernel
  rw [h] at h1
  exact absurd (hr.symm.trans (Option.some.inj h1)) (by decide)
theorem test_false_variant_whole_grid_morton : results .tmap (layout 4 8 []) 2#32 5#32 ≠
    some [38#32, 1#32, 6#32, 0x02#32] := by decide +kernel

/-! Witnesses: for each statement with hypotheses, concrete states and operands that meet them together, one for each
clause, at the ends of its ranges. `at2` is a block with the layout of a 2 by 2 grid (R29: SIDE 2, TCOUNT 1, TLEN 4,
NELEM 4), `at1` one with that of a 1 by 1 grid (SIDE 1). -/

def at2 (x y : Word) (events : List HostEvent) : State := { layout 2 2 [] with a0 := x, a1 := y, inbox := events }

def at1 : State := layout 1 1 []

theorem layoutOk_at2 (x y : Word) (events : List HostEvent) : LayoutOk (at2 x y events) := by
  have h : LayoutOk (layout 2 2 []) :=
    ⟨by decide +kernel, by decide +kernel, by decide +kernel, by decide +kernel, by decide +kernel, by decide +kernel,
      by decide +kernel, by decide +kernel, by decide +kernel⟩
  exact ⟨h.1, h.2, h.3, h.4, h.5, h.6, h.7, h.8, h.9⟩

theorem valid_at2 (x y : Word) (events : List HostEvent) : (at2 x y events).valid = true :=
  show (layout 2 2 []).valid = true by decide +kernel

theorem layoutOk_at1 : LayoutOk at1 :=
  ⟨by decide +kernel, by decide +kernel, by decide +kernel, by decide +kernel, by decide +kernel, by decide +kernel,
    by decide +kernel, by decide +kernel, by decide +kernel⟩

theorem inv_at2 (x y : Word) (events : List HostEvent) : Inv (at2 x y events) where
  cap_pos := show 1 ≤ (layout 2 2 []).cap.toNat by decide +kernel
  status_reserved := show (layout 2 2 []).status &&& ~~~statusMask = 0#32 by decide +kernel
  rc_range := show (layout 2 2 []).rc.toNat ≤ 2 by decide +kernel
  cause_range := show (layout 2 2 []).cause.toNat ≤ 5 by decide +kernel
  fault_iff_rc := show (layout 2 2 []).faulted = true ↔ (layout 2 2 []).rc = 2#4 by decide +kernel
  fault_iff_cause := show (layout 2 2 []).faulted = true ↔ (layout 2 2 []).cause ≠ 0#32 by decide +kernel
  layout_ok := fun _ => layoutOk_at2 x y events
  layout_zero := fun h => absurd (valid_at2 x y events) (by simp [h])
  src_ok := show MemoryOk (layout 2 2 []).cap.toNat (layout 2 2 []).src from ⟨by decide +kernel, by decide +kernel⟩
  dst_ok := show MemoryOk (layout 2 2 []).cap.toNat (layout 2 2 []).dst from ⟨by decide +kernel, by decide +kernel⟩
  dst_filled := show (layout 2 2 []).valid = true → ∀ d, d < (layout 2 2 []).nelem.toNat →
    ((layout 2 2 []).dst.read d).isSome = true by decide +kernel

theorem inv_reset : Inv State.reset where
  cap_pos := by decide
  status_reserved := by decide
  rc_range := by decide
  cause_range := by decide
  fault_iff_rc := by decide
  fault_iff_cause := by decide
  layout_ok := fun h => absurd h (by decide)
  layout_zero := fun _ => ⟨rfl, rfl, rfl, rfl, rfl, rfl, rfl, rfl⟩
  src_ok := ⟨by decide, by decide⟩
  dst_ok := ⟨by decide, by decide⟩
  dst_filled := fun h => absurd h (by decide)

theorem witness_EveryOtherCommandWordFaults :
    0x00000000#32 ∉ commandWords ∧ 0x00000021#32 ∉ commandWords ∧ 0x00000101#32 ∉ commandWords ∧
    (ready 0#32 0#32 0#32 [.hostWrite 0#6 0x00000101#32]).faulted = false ∧
    (ready 0#32 0#32 0#32 [.hostWrite 0#6 0x00000101#32]).inbox = .hostWrite 0#6 0x00000101#32 :: [] := by decide

theorem witness_StepRunsTheDecodedCommand :
    (ready 1#32 2#32 0#32 [.hostWrite 0#6 1#32, .reset]).faulted = false ∧
    (ready 1#32 2#32 0#32 [.hostWrite 0#6 1#32, .reset]).inbox = .hostWrite 0#6 1#32 :: [.reset] ∧
    decode 1#32 = .ok .ilv := by decide

theorem witness_FetchedWordRunsAndIdleStepIsNothing :
    State.reset.inbox = [] ∧ State.reset.faulted = false ∧ 0x20 < 2 ^ 32 ∧
    decode (BitVec.ofNat 32 0x20) = .ok .put := by decide

/-- Each register number, the reserved ones at the ends of their ranges among them, can be what the host reads or
writes next: the hypotheses of `HostReadReturnsTheRegister` and of `ReservedNumbersNameNoRegister`. -/
theorem witness_HostReadReturnsTheRegister :
    ∀ n : RegNum, (dead [.hostRead n]).inbox = .hostRead n :: [] := fun _ => rfl

theorem witness_ReservedNumbersNameNoRegister :
    ∀ n ∈ [7#6, 11#6, 20#6, 63#6], (n.toNat = 7 ∨ n.toNat = 11 ∨ 20 ≤ n.toNat) ∧
      (dead [.hostRead n]).inbox = .hostRead n :: [] ∧ (dead [.hostWrite n 1#32]).inbox = .hostWrite n 1#32 :: [] := by
  decide

theorem witness_HostWriteReachesOnlyArguments :
    ∀ n ∈ [1#6, 3#6, 4#6, 5#6, 6#6, 7#6, 63#6], n ≠ 0#6 ∧
      (ready 0#32 0#32 0#32 [.hostWrite n 9#32]).inbox = .hostWrite n 9#32 :: [] ∧
      (ready 0#32 0#32 0#32 [.hostWrite n 9#32]).faulted = false ∧ (dead [.hostWrite n 9#32]).faulted = true ∧
      (dead [.hostWrite n 9#32]).inbox = .hostWrite n 9#32 :: [] := by decide

theorem witness_WindowAccessIsWholeWordsOnly :
    (dead [.windowAccess 76#8 4 none]).inbox = .windowAccess 76#8 4 none :: [] ∧ (76#8).toNat % 4 = 0 ∧
    (dead [.windowAccess 252#8 4 (some 1#32)]).inbox = .windowAccess 252#8 4 (some 1#32) :: [] ∧
    (252#8).toNat % 4 = 0 ∧
    (dead [.windowAccess 76#8 8 none]).inbox = .windowAccess 76#8 8 none :: [] ∧ 8 ≠ 4 ∧
    (dead [.windowAccess 255#8 4 none]).inbox = .windowAccess 255#8 4 none :: [] ∧ (255#8).toNat % 4 ≠ 0 := by decide

theorem witness_MacroRunsItsCommand :
    (ready 0#32 0#32 0#32 (eventsOfMacro (.build 2#32 2#32 4#32) ++ [.reset])).faulted = false ∧
    (ready 0#32 0#32 0#32 (eventsOfMacro (.build 2#32 2#32 4#32) ++ [.reset])).inbox =
      eventsOfMacro (.build 2#32 2#32 4#32) ++ [.reset] := by decide

theorem witness_ResetZeroesEveryRegister : (dead [.reset]).inbox = .reset :: [] := rfl

theorem witness_StatusFieldUpdatesTouchOnlyTheirBits : (4 ≤ 7 ∧ 7 < 8 ∧ 7 < 32) ∧ ¬ (4 ≤ 8 ∧ 8 < 8) ∧ 31 < 32 := by
  decide

theorem witness_ResetMeetsTheInvariant : (1#32 : Word) ≠ 0#32 ∧ (0xFFFFFFFF#32 : Word) ≠ 0#32 := by decide

theorem witness_StepKeepsTheInvariant : Inv (at2 1#32 1#32 [.hostWrite 0#6 0x16#32]) ∧
    ∃ t, step (at2 1#32 1#32 [.hostWrite 0#6 0x16#32]) = .next t :=
  ⟨inv_at2 _ _ _, _, rfl⟩

theorem witness_SafeStatesStep : Safe (at2 1#32 1#32 [.windowAccess 252#8 4 none]) :=
  ⟨inv_at2 _ _ _, by simp [at2, HostEvent.wf, wholeRegister, alignedOffset]⟩

theorem witness_FaultRcAndCauseAgreeAndValidSticks :
    (∃ t, core.run 1 { State.reset with cap := 1#32, inbox := [.hostWrite 0#6 3#32] } = .next t ∧ t.faulted = true) ∧
    (at2 0#32 0#32 [.hostWrite 0#6 3#32]).valid = true ∧
    (at2 0#32 0#32 [.hostWrite 0#6 3#32]).inbox.head? ≠ some .reset ∧
    ∃ t, step (at2 0#32 0#32 [.hostWrite 0#6 3#32]) = .next t :=
  ⟨⟨_, rfl, by decide⟩, valid_at2 _ _ _, by simp [at2], _, rfl⟩

theorem witness_FaultedBlockIgnoresEveryWrite :
    (dead [.hostWrite 0#6 2#32, .hostRead 8#6, .windowAccess 16#8 4 (some 1#32), .reset]).faulted = true ∧
    (dead [.hostWrite 0#6 2#32, .hostRead 8#6, .windowAccess 16#8 4 (some 1#32), .reset]).inbox =
      [.hostWrite 0#6 2#32, .hostRead 8#6, .windowAccess 16#8 4 (some 1#32)] ++ [.reset] ∧
    (∀ e ∈ [HostEvent.hostWrite 0#6 2#32, .hostRead 8#6, .windowAccess 16#8 4 (some 1#32)],
      e ≠ .reset ∧ e.wf = true) ∧
    (dead [.reset]).faulted = true ∧ (dead [.reset]).inbox = .reset :: [] := by decide

/-- A next state of each of the three kinds, for the statements about what a command answers:
`CommandEndsInOneOfThreeWays`, `CommandsWriteOnlyTheirResultRegisters`, `OnlyBuildChangesTheLayout`. -/
theorem witness_CommandEndsInOneOfThreeWays :
    (∃ t, exec .put (ready 0#32 7#32 0#32 []) = .next t ∧ t.rc = 0#4) ∧
    (∃ t, exec .build (ready 6#32 4#32 23#32 []) = .next t ∧ t.rc = 1#4) ∧
    (∃ t, exec .ilv (ready 0x00010000#32 0#32 0#32 []) = .next t ∧ t.rc = 2#4) :=
  ⟨⟨_, rfl, by decide⟩, ⟨_, rfl, by decide⟩, ⟨_, rfl, by decide⟩⟩

theorem witness_FailureTable : ∀ i, decode 0x00000101#32 ≠ .ok i := by
  intro i; cases i <;> decide

theorem witness_SourceElementsStayUntilPut :
    (∃ t, step (ready 5#32 7#32 0#32 [.hostWrite 0#6 0x20#32]) = .next t) ∧
    (ready 5#32 7#32 0#32 [.hostWrite 0#6 0x20#32]).inbox.head? ≠ some .reset :=
  ⟨⟨_, rfl⟩, by decide⟩

theorem witness_AccessorsReturnOnlyBuiltElements :
    (Inv (at2 0#32 3#32 []) ∧ ∃ t, exec .getm (at2 0#32 3#32 []) = .next t ∧ t.rc = 0#4) ∧
    (Inv (at2 1#32 1#32 []) ∧ ∃ t, exec .getxy (at2 1#32 1#32 []) = .next t ∧ t.rc = 0#4) :=
  ⟨⟨inv_at2 _ _ _, _, rfl, by decide +kernel⟩, ⟨inv_at2 _ _ _, _, rfl, by decide +kernel⟩⟩

theorem witness_CodecRoundTrips :
    (ready 0xFFFF#32 0xFFFF#32 0#32 []).a0.toNat < 2 ^ 16 ∧ (ready 0xFFFF#32 0xFFFF#32 0#32 []).a1.toNat < 2 ^ 16 := by
  decide

theorem witness_IlvInterleavesOrFaults :
    ((ready 0xFFFF#32 0#32 0#32 []).a0.toNat < 2 ^ 16 ∧ (ready 0xFFFF#32 0#32 0#32 []).a1.toNat < 2 ^ 16) ∧
    2 ^ 16 ≤ (ready 0x00010000#32 0#32 0#32 []).a0.toNat ∧ 2 ^ 16 ≤ (ready 0#32 0x00010000#32 0#32 []).a1.toNat := by
  decide

/-- Bits and exponents in range, for the statements about the bits of the codec and the side:
`InterleaveMeetsItsBitContract`, `DeinterleaveMeetsItsBitContract`, `SpreadSequenceComputesInterleave`,
`CompressSequenceComputesDeinterleave`, `InterleaveIsABijectionOnEverySquare`, `TileSideClosedForm`,
`RearrangementIsABijection`. -/
theorem witness_TileSideClosedForm : 15 < 16 ∧ 16 ≤ 16 ∧ 1 ≤ 131072 ∧ 2 ^ 16 ∣ 131072 := by decide

theorem witness_SideDerivesTheTileSideOrFaults :
    ((ready 1#32 0xFFFFFFFF#32 0#32 []).a0 ≠ 0#32 ∧ (ready 1#32 0xFFFFFFFF#32 0#32 []).a1 ≠ 0#32) ∧
    (ready 5#32 0#32 0#32 []).a1 = 0#32 ∧ (ready 0#32 5#32 0#32 []).a0 = 0#32 := by decide

theorem witness_BuildChecksInOrderBeforeWriting :
    (23#32).toNat ≠ (6#32).toNat * (4#32).toNat ∧ (0#32).toNat ≠ (65536#32).toNat * (65536#32).toNat ∧
    (0#32).toNat = (0#32).toNat * (5#32).toNat ∧
    ((1025#32).toNat = (1025#32).toNat * (1#32).toNat ∧
      (ready 1025#32 1#32 1025#32 []).cap.toNat < (ready 1025#32 1#32 1025#32 []).a2.toNat) := by decide

theorem witness_BuildRearrangesTheWholeGrid :
    (ready 1024#32 1#32 1024#32 []).a2.toNat =
      (ready 1024#32 1#32 1024#32 []).a0.toNat * (ready 1024#32 1#32 1024#32 []).a1.toNat ∧
    (ready 1024#32 1#32 1024#32 []).a0 ≠ 0#32 ∧ (ready 1024#32 1#32 1024#32 []).a1 ≠ 0#32 ∧
    (ready 1024#32 1#32 1024#32 []).a2.toNat ≤ (ready 1024#32 1#32 1024#32 []).cap.toNat := by decide

theorem witness_BuildMovesEveryElementOnce :
    ∃ t, exec .build (loaded 2 2 []) = .next t ∧ t.rc = 0#4 := ⟨_, rfl, by decide +kernel⟩

theorem witness_OrderOfTheMovesDoesNotMatter :
    Memory.wf (loaded 2 2 []).dst ∧ [3, 1, 0, 2].Perm (List.range (2 * 2)) := by decide

theorem witness_LayoutRegistersFitTogether : Inv (at2 0#32 0#32 []) ∧ (at2 0#32 0#32 []).valid = true :=
  ⟨inv_at2 _ _ _, valid_at2 _ _ _⟩

theorem witness_LayoutRegistersReadZeroWithoutALayout :
    Inv State.reset ∧ State.reset.valid = false ∧ 12 ≤ (12#6).toNat ∧ (19#6).toNat ≤ 19 :=
  ⟨inv_reset, by decide, by decide, by decide⟩

/-- For `TmapGivesTheDestinationOffset`, `GetxyReadsTheGridElement` and `AddressMapsAreInverse`. -/
theorem witness_TmapGivesTheDestinationOffset :
    State.reset.valid = false ∧
    ((at2 2#32 0#32 []).valid = true ∧ (at2 2#32 0#32 []).width.toNat ≤ (at2 2#32 0#32 []).a0.toNat) ∧
    ((at2 0#32 2#32 []).valid = true ∧ (at2 0#32 2#32 []).height.toNat ≤ (at2 0#32 2#32 []).a1.toNat) ∧
    ((at2 1#32 1#32 []).valid = true ∧ LayoutOk (at2 1#32 1#32 []) ∧
      (at2 1#32 1#32 []).a0.toNat < (at2 1#32 1#32 []).width.toNat ∧
      (at2 1#32 1#32 []).a1.toNat < (at2 1#32 1#32 []).height.toNat) :=
  ⟨by decide, ⟨valid_at2 _ _ _, by decide +kernel⟩, ⟨valid_at2 _ _ _, by decide +kernel⟩,
    valid_at2 _ _ _, layoutOk_at2 _ _ _, by decide +kernel, by decide +kernel⟩

theorem witness_TinvGivesTheGridPosition :
    State.reset.valid = false ∧
    ((at2 4#32 0#32 []).valid = true ∧ (at2 4#32 0#32 []).nelem.toNat ≤ (at2 4#32 0#32 []).a0.toNat) ∧
    ((at2 3#32 0#32 []).valid = true ∧ LayoutOk (at2 3#32 0#32 []) ∧
      (at2 3#32 0#32 []).a0.toNat < (at2 3#32 0#32 []).nelem.toNat) :=
  ⟨by decide, ⟨valid_at2 _ _ _, by decide +kernel⟩, valid_at2 _ _ _, layoutOk_at2 _ _ _, by decide +kernel⟩

theorem witness_LastPositionLastOffsetLastTile : LayoutOk (at2 0#32 0#32 []) ∧
    LayoutOk at1 ∧ at1.side = 1#32 ∧ 0 < at1.width.toNat ∧ 0 < at1.height.toNat :=
  ⟨layoutOk_at2 _ _ _, layoutOk_at1, by decide +kernel, by decide +kernel, by decide +kernel⟩

/-- For `TilesAreDisjointAndCoverTheLayout` and `TileHoldsItsSquareOfTheGrid`. -/
theorem witness_TileHoldsItsSquareOfTheGrid : LayoutOk (at2 0#32 0#32 []) ∧ 0 < (at2 0#32 0#32 []).tcount.toNat ∧
    3 < (at2 0#32 0#32 []).tlen.toNat ∧ 3 < (at2 0#32 0#32 []).nelem.toNat :=
  ⟨layoutOk_at2 _ _ _, by decide +kernel, by decide +kernel, by decide +kernel⟩

/-- For `TileGivesOffsetColumnAndRow` and `GetmReadsTheTileElement`. -/
theorem witness_GetmReadsTheTileElement :
    State.reset.valid = false ∧
    ((at2 1#32 0#32 []).valid = true ∧ (at2 1#32 0#32 []).tcount.toNat ≤ (at2 1#32 0#32 []).a0.toNat) ∧
    ((at2 0#32 4#32 []).valid = true ∧ (at2 0#32 4#32 []).tlen.toNat ≤ (at2 0#32 4#32 []).a1.toNat) ∧
    ((at2 0#32 3#32 []).valid = true ∧ LayoutOk (at2 0#32 3#32 []) ∧
      (at2 0#32 3#32 []).a0.toNat < (at2 0#32 3#32 []).tcount.toNat ∧
      (at2 0#32 3#32 []).a1.toNat < (at2 0#32 3#32 []).tlen.toNat) :=
  ⟨by decide, ⟨valid_at2 _ _ _, by decide +kernel⟩, ⟨valid_at2 _ _ _, by decide +kernel⟩,
    valid_at2 _ _ _, layoutOk_at2 _ _ _, by decide +kernel, by decide +kernel⟩

theorem witness_PutStoresOneSourceElement :
    (ready 1024#32 0#32 0#32 []).cap.toNat ≤ (ready 1024#32 0#32 0#32 []).a0.toNat ∧
    (ready 1023#32 0#32 0#32 []).a0.toNat < (ready 1023#32 0#32 0#32 []).cap.toNat := by decide

/-- The host writes A0 and A1: two steps that are no reset and no BUILD. -/
theorem args_written {s : State} {x y : Word} (hf : s.faulted = false)
    (hi : s.inbox = [.hostWrite 4#6 x, .hostWrite 5#6 y]) :
    Relation.ReflTransGen StepWithoutRebuild s { s with inbox := [], a0 := x, a1 := y } := by
  have h1 : StepWithoutRebuild s { s with inbox := [.hostWrite 5#6 y], a0 := x } := by
    refine ⟨?_, by simp [hi], fun h => ?_⟩
    · rw [step_of_inbox_cons hi]
      show hostWrite _ _ _ = _
      rw [hostWrite, if_neg (by rw [Bool.not_eq_true]; exact hf), if_neg (by decide)]
      rfl
    · have := h.2.1
      simp [hi, commandWord] at this
  have h2 : StepWithoutRebuild { s with inbox := [.hostWrite 5#6 y], a0 := x }
      { s with inbox := [], a0 := x, a1 := y } := by
    refine ⟨?_, by simp, fun h => ?_⟩
    · rw [step_of_inbox_cons (e := .hostWrite 5#6 y) (rest := []) rfl]
      show hostWrite _ _ _ = _
      rw [hostWrite, if_neg (by rw [Bool.not_eq_true]; exact hf), if_neg (by decide)]
      rfl
    · have := h.2.1
      simp [commandWord] at this
  exact (Relation.ReflTransGen.single h1).tail h2

/-- A BUILD of a 2 by 2 grid, the two writes of `args_written`, then the arguments of each clause at their bounds. -/
theorem witness_ElementsReadBackAsBuilt :
    (∃ b u, exec .build (loaded 2 2 [.hostWrite 4#6 1#32, .hostWrite 5#6 1#32]) = .next b ∧ b.rc = 0#4 ∧
      Relation.ReflTransGen StepWithoutRebuild b u ∧
      u.a0.toNat < (loaded 2 2 []).a0.toNat ∧ u.a1.toNat < (loaded 2 2 []).a1.toNat) ∧
    (∃ b u, exec .build (loaded 2 2 [.hostWrite 4#6 0#32, .hostWrite 5#6 3#32]) = .next b ∧ b.rc = 0#4 ∧
      Relation.ReflTransGen StepWithoutRebuild b u ∧
      u.a0.toNat < b.tcount.toNat ∧ u.a1.toNat < b.tlen.toNat) :=
  ⟨⟨layout 2 2 [.hostWrite 4#6 1#32, .hostWrite 5#6 1#32], _, rfl, by decide +kernel,
      args_written (by decide +kernel) rfl, by decide, by decide⟩,
    layout 2 2 [.hostWrite 4#6 0#32, .hostWrite 5#6 3#32], _, rfl, by decide +kernel,
      args_written (by decide +kernel) rfl, by decide +kernel, by decide +kernel⟩

end Sys2Proof.Machine.Test
end

/-! SUPPORT. The derived side is the largest common power of two (41_tile_rearranger.md R120, R124), and the destination
offsets of a grid are exactly the numbers below `w * h` (R129). -/

namespace Sys2Proof.Machine

/-- The halving loop never falls below a power of two that divides both dimensions (R124). -/
theorem le_halveUntilDivides {w h j : Nat} (hw : 2 ^ j ∣ w) (hh : 2 ^ j ∣ h) (fuel : Nat) {k : Nat} (hjk : j ≤ k) :
    2 ^ j ≤ halveUntilDivides w h fuel (2 ^ k) := by
  induction fuel generalizing k with
  | zero => exact Nat.pow_le_pow_right (by omega) hjk
  | succ fuel ih =>
    simp only [halveUntilDivides]
    split
    · rename_i hnd
      have hne : j ≠ k := by
        rintro rfl
        simp [Nat.mod_eq_zero_of_dvd hw, Nat.mod_eq_zero_of_dvd hh] at hnd
      obtain ⟨k, rfl⟩ : ∃ m, k = m + 1 := ⟨k - 1, by omega⟩
      rw [pow_succ, Nat.mul_div_cancel _ (by omega)]
      exact ih (by omega)
    · exact Nat.pow_le_pow_right (by omega) hjk

/-- The derived side is the largest power of two up to 2^16 that divides both dimensions (R120). -/
theorem le_tileSide {w h j : Nat} (hw0 : 1 ≤ w) (hh0 : 1 ≤ h) (hj : j ≤ 16) (hw : 2 ^ j ∣ w) (hh : 2 ^ j ∣ h) :
    2 ^ j ≤ tileSide w h := by
  have hlog : j ≤ (min w h).log2 :=
    (Nat.le_log2 (by omega)).2 (le_min (Nat.le_of_dvd hw0 hw) (Nat.le_of_dvd hh0 hh))
  rw [tileSide, tileSide_start]
  exact le_halveUntilDivides hw hh 16 (le_min hlog hj)

theorem tileSide_dvd_left (w h : Nat) : tileSide w h ∣ w := by
  obtain ⟨k, -, he, hw, -⟩ := tileSide_spec w h
  rwa [he]

theorem tileSide_dvd_right (w h : Nat) : tileSide w h ∣ h := by
  obtain ⟨k, -, he, -, hh⟩ := tileSide_spec w h
  rwa [he]

theorem tileSide_le (w h : Nat) : tileSide w h ≤ 2 ^ 16 := by
  obtain ⟨k, hk, he, -⟩ := tileSide_spec w h
  rw [he]
  exact Nat.pow_le_pow_right (by omega) hk

/-- The side in closed form (R124). -/
theorem tileSide_eq_pow_sideExponent {w h : Nat} (hw0 : 1 ≤ w) (hh0 : 1 ≤ h) :
    tileSide w h = 2 ^ sideExponent w h := by
  have two_pow_dvd_iff {a n : Nat} (ha : 1 ≤ a) : 2 ^ n ∣ a ↔ n ≤ padicValNat 2 a :=
    padicValNat_dvd_iff_le_of_ne_one (by omega) (by omega)
  refine Nat.le_antisymm ?_ ?_
  · obtain ⟨k, hk, he, hw, hh⟩ := tileSide_spec w h
    rw [he]
    exact Nat.pow_le_pow_right (by omega)
      (le_min (le_min ((two_pow_dvd_iff hw0).1 hw) ((two_pow_dvd_iff hh0).1 hh)) hk)
  · refine le_tileSide hw0 hh0 (min_le_right _ _) ?_ ?_
    · exact (two_pow_dvd_iff hw0).2 ((min_le_left _ _).trans (min_le_left _ _))
    · exact (two_pow_dvd_iff hh0).2 ((min_le_left _ _).trans (min_le_right _ _))

/-- The tiles fill the grid (10_state.md R29: TCOUNT * TLEN = NELEM). -/
theorem tiles_fill_grid {w h side : Nat} (hw : side ∣ w) (hh : side ∣ h) :
    (w / side) * (h / side) * (side * side) = w * h := by
  rw [Nat.div_mul_div_comm hw hh]
  exact Nat.div_mul_cancel (Nat.mul_dvd_mul hw hh)

/-- The square tile fits in the grid. -/
theorem tileSide_mul_self_le {w h : Nat} (hw0 : 1 ≤ w) (hh0 : 1 ≤ h) :
    tileSide w h * tileSide w h ≤ w * h :=
  Nat.mul_le_mul (Nat.le_of_dvd hw0 (tileSide_dvd_left w h)) (Nat.le_of_dvd hh0 (tileSide_dvd_right w h))

/-- Coordinates in a tile have a local Morton index below the tile's length (R128). -/
theorem mortonIndex_lt_tile (w h : Nat) {lx ly : Nat} (hx : lx < tileSide w h) (hy : ly < tileSide w h) :
    mortonIndex lx ly < tileSide w h * tileSide w h := by
  obtain ⟨k, hk, he, -⟩ := tileSide_spec w h
  rw [he] at hx hy ⊢
  rw [← mul_pow]
  exact mortonIndex_lt hk hx hy

/-- Every number below the tile's length is the local Morton index of coordinates in the tile. -/
theorem exists_mortonIndex_eq (w h : Nat) {m : Nat} (hm : m < tileSide w h * tileSide w h) :
    ∃ lx ly, lx < tileSide w h ∧ ly < tileSide w h ∧ mortonIndex lx ly = m := by
  obtain ⟨k, hk, he, -⟩ := tileSide_spec w h
  rw [he, ← mul_pow] at hm
  have hle : (4 : Nat) ^ k ≤ 4 ^ 16 := Nat.pow_le_pow_right (by omega) hk
  have hm4 : m < 4 ^ k := hm
  refine ⟨compressBits 16 m, compressBits 16 (m / 2), ?_, ?_, ?_⟩
  · rw [he]; exact compressBits_lt_of_lt hm4
  · rw [he]; exact compressBits_lt_of_lt (by omega)
  · rw [mortonIndex_eq (compressBits_lt 16 _) (compressBits_lt 16 _), spread_compressBits,
      Nat.mod_eq_of_lt (by omega)]

/-- A destination offset of the grid is below the grid's size (R129). -/
theorem destOffset_lt {w h x y : Nat} (hx : x < w) (hy : y < h) : destOffset w (tileSide w h) x y < w * h := by
  have hside := tileSide_pos w h
  have hcol : x / tileSide w h < w / tileSide w h := Nat.div_lt_div_of_lt_of_dvd (tileSide_dvd_left w h) hx
  have hrow : y / tileSide w h < h / tileSide w h := Nat.div_lt_div_of_lt_of_dvd (tileSide_dvd_right w h) hy
  have hm := mortonIndex_lt_tile w h (Nat.mod_lt x hside) (Nat.mod_lt y hside)
  have htile : (y / tileSide w h) * (w / tileSide w h) + x / tileSide w h <
      (w / tileSide w h) * (h / tileSide w h) := by
    rw [mul_comm (y / tileSide w h), mul_comm (w / tileSide w h) (h / tileSide w h)]
    exact Nat.mul_add_lt_mul_of_lt_of_lt hrow hcol
  rw [destOffset_eq, ← tiles_fill_grid (tileSide_dvd_left w h) (tileSide_dvd_right w h), mul_comm (_ + _)]
  exact Nat.mul_add_lt_mul_of_lt_of_lt htile hm

/-- Every offset below the grid's size is the destination of a position (R129): the tile index is the quotient of
the offset by the tile's length, the local Morton index its remainder. -/
theorem exists_destOffset_eq {w h d : Nat} (hd : d < w * h) :
    ∃ x y, x < w ∧ y < h ∧ destOffset w (tileSide w h) x y = d := by
  have hside := tileSide_pos w h
  have hw := tileSide_dvd_left w h
  have hh := tileSide_dvd_right w h
  have hlen : 0 < tileSide w h * tileSide w h := Nat.mul_pos hside hside
  obtain ⟨lx, ly, hlx, hly, hm⟩ := exists_mortonIndex_eq w h (Nat.mod_lt d hlen)
  have ht : d / (tileSide w h * tileSide w h) < (w / tileSide w h) * (h / tileSide w h) :=
    Nat.div_lt_of_lt_mul (by rw [mul_comm, tiles_fill_grid hw hh]; exact hd)
  generalize tileSide w h = side at *
  generalize hteq : d / (side * side) = t at *
  have hcols : 0 < w / side := Nat.pos_of_mul_pos_right (Nat.zero_lt_of_lt ht)
  have hx : side * (t % (w / side)) + lx < w :=
    (Nat.mul_add_lt_mul_of_lt_of_lt (Nat.mod_lt t hcols) hlx).trans_eq (Nat.div_mul_cancel hw)
  have hy : side * (t / (w / side)) + ly < h :=
    (Nat.mul_add_lt_mul_of_lt_of_lt (Nat.div_lt_of_lt_mul ht) hly).trans_eq (Nat.div_mul_cancel hh)
  refine ⟨_, _, hx, hy, ?_⟩
  rw [destOffset_eq, Nat.mul_add_div hside, Nat.mul_add_div hside, Nat.div_eq_of_lt hlx, Nat.div_eq_of_lt hly,
    Nat.mul_add_mod, Nat.mul_add_mod, Nat.mod_eq_of_lt hlx, Nat.mod_eq_of_lt hly, hm, add_zero, add_zero,
    Nat.div_add_mod', ← hteq, Nat.div_add_mod']

end Sys2Proof.Machine

/-! SUPPORT. The updates of STATUS bit by bit (10_state.md R24), the registers after a reset (R34), and the step that
runs a command (30_encoding.md R84). -/

namespace Sys2Proof.Machine

/-- The mask of RC leaves every bit but 7:4 (10_state.md R24). -/
theorem getLsbD_not_rcMask {i : Nat} (hi : i < 32) : (~~~0x000000F0#32).getLsbD i = !decide (4 ≤ i ∧ i < 8) := by
  interval_cases i <;> rfl

theorem getLsbD_setRc (rc : BitVec 4) (w : Word) {i : Nat} (hi : i < 32) :
    (setRc rc w).getLsbD i = if 4 ≤ i ∧ i < 8 then rc.getLsbD (i - 4) else w.getLsbD i := by
  rw [setRc, BitVec.getLsbD_or, BitVec.getLsbD_and, getLsbD_not_rcMask hi, BitVec.getLsbD_shiftLeft,
    BitVec.getLsbD_setWidth]
  by_cases h4 : i < 4
  · simp [h4, show ¬ 4 ≤ i by omega]
  · by_cases h8 : i < 8
    · simp [hi, h4, h8, show 4 ≤ i by omega, show i - 4 < 32 by omega]
    · simp [h8, BitVec.getLsbD_of_ge rc (i - 4) (by omega)]

/-- Setting one bit of STATUS changes that bit only. -/
theorem getLsbD_or_twoPow (w : Word) (b : Nat) {i : Nat} (hi : i < 32) :
    (w ||| BitVec.twoPow 32 b).getLsbD i = (decide (i = b) || w.getLsbD i) := by
  rw [BitVec.getLsbD_or, BitVec.getLsbD_twoPow, Bool.or_comm]
  by_cases h : i = b
  · subst h; simp [hi]
  · simp [h, Ne.symm h]

/-- Every register but CAP is 0 after a reset (10_state.md R34). -/
theorem regValue_applyReset (s : State) {r : RegName} (hr : r ≠ .cap) : regValue (applyReset s) r = 0#32 := by
  cases r with
  | cap => exact absurd rfl hr
  | status => simp [regValue]
  | cause => simp [regValue]
  | _ => rfl

/-- A write of a legal word to CMD of a block that is not faulted runs its command (30_encoding.md R84). -/
theorem step_of_cmd_write {s : State} {w : Word} {i : Instr} {rest : List HostEvent} (hf : s.faulted = false)
    (hi : s.inbox = .hostWrite 0#6 w :: rest) (hd : decode w = .ok i) :
    step s = exec i { s with cmd := w, inbox := rest } := by
  have hf' : State.faulted { s with inbox := rest } = false := hf
  rw [step_of_inbox_cons hi]
  simp [serveEvent, hostWrite, hf', runCommand, hd]

end Sys2Proof.Machine

/-! SUPPORT. What a successful command leaves as it was, and the registers a successful BUILD leaves (10_state.md R21,
R28, 41_tile_rearranger.md R126, R130). -/

namespace Sys2Proof.Machine

/-- A successful command is a BUILD, a PUT, or writes result registers only, those its rule names (10_state.md R21). -/
theorem CommandEffect.cases_by_writes {i : Instr} {s u : State} (h : CommandEffect i s u) :
    (i = .build ∧ u = s.built) ∨
    (i = .put ∧ u = { s with src := s.src.write s.arg0 s.a1 }) ∨
    (∃ r0 r1 r2, u = { s with r0 := r0, r1 := r1, r2 := r2 } ∧ i ≠ .build ∧ i ≠ .put ∧
      (i ∈ [Instr.ilv, .side, .getm, .getxy] → r1 = s.r1) ∧
      (i ∈ [Instr.ilv, .dlv, .side, .getm, .getxy] → r2 = s.r2)) := by
  cases i
  case build => obtain ⟨-, -, -, -, rfl⟩ := h; exact .inl ⟨rfl, rfl⟩
  case put => obtain ⟨-, rfl⟩ := h; exact .inr (.inl ⟨rfl, rfl⟩)
  case ilv => obtain ⟨-, -, rfl⟩ := h; exact .inr (.inr ⟨_, _, _, rfl, by simp⟩)
  case dlv => obtain rfl := h; exact .inr (.inr ⟨_, _, _, rfl, by simp⟩)
  case side => obtain ⟨-, -, rfl⟩ := h; exact .inr (.inr ⟨_, _, _, rfl, by simp⟩)
  case tmap => obtain ⟨-, -, rfl⟩ := h; exact .inr (.inr ⟨_, _, _, rfl, by simp⟩)
  case tinv => obtain ⟨-, -, rfl⟩ := h; exact .inr (.inr ⟨_, _, _, rfl, by simp⟩)
  case tile => obtain ⟨-, -, rfl⟩ := h; exact .inr (.inr ⟨_, _, _, rfl, by simp⟩)
  case getm => obtain ⟨-, -, -, -, rfl⟩ := h; exact .inr (.inr ⟨_, _, _, rfl, by simp⟩)
  case getxy => obtain ⟨-, -, -, rfl⟩ := h; exact .inr (.inr ⟨_, _, _, rfl, by simp⟩)

theorem toNat_wordOf {n : Nat} (h : n < 2 ^ 32) : (wordOf n).toNat = n := by
  rw [wordOf, BitVec.toNat_ofNat, Nat.mod_eq_of_lt h]

@[simp] theorem State.built_status (s : State) : s.built.status = setValid s.status := rfl

@[simp] theorem State.built_width_toNat (s : State) : s.built.width.toNat = s.arg0 := toNat_wordOf s.a0.isLt
@[simp] theorem State.built_height_toNat (s : State) : s.built.height.toNat = s.arg1 := toNat_wordOf s.a1.isLt
@[simp] theorem State.built_nelem_toNat (s : State) : s.built.nelem.toNat = s.arg2 := toNat_wordOf s.a2.isLt

@[simp] theorem State.built_side_toNat (s : State) : s.built.side.toNat = tileSide s.arg0 s.arg1 :=
  toNat_wordOf ((tileSide_le _ _).trans_lt (by norm_num))

@[simp] theorem State.built_tcols_toNat (s : State) : s.built.tcols.toNat = s.arg0 / tileSide s.arg0 s.arg1 :=
  toNat_wordOf ((Nat.div_le_self _ _).trans_lt s.a0.isLt)

@[simp] theorem State.built_trows_toNat (s : State) : s.built.trows.toNat = s.arg1 / tileSide s.arg0 s.arg1 :=
  toNat_wordOf ((Nat.div_le_self _ _).trans_lt s.a1.isLt)

@[simp] theorem State.built_valid (s : State) : s.built.valid = true := by simp [State.valid]
@[simp] theorem State.built_faulted (s : State) : s.built.faulted = s.faulted := by simp [State.faulted]
@[simp] theorem State.built_rc (s : State) : s.built.rc = s.rc := by simp [State.rc]

/-- The layout registers a successful BUILD writes describe a layout that fits the block (R29): no number of the
layout exceeds the product A0 * A1, which A2 holds. -/
theorem layoutOk_built {s : State} (hl : s.arg2 = s.arg0 * s.arg1) (h0 : s.arg0 ≠ 0) (h1 : s.arg1 ≠ 0)
    (hc : s.arg2 ≤ s.cap.toNat) : LayoutOk s.built := by
  have hw : 1 ≤ s.arg0 := Nat.one_le_iff_ne_zero.2 h0
  have hh : 1 ≤ s.arg1 := Nat.one_le_iff_ne_zero.2 h1
  have hprod : s.arg0 * s.arg1 < 2 ^ 32 := hl ▸ s.a2.isLt
  have htcount : s.built.tcount.toNat = s.arg0 / tileSide s.arg0 s.arg1 * (s.arg1 / tileSide s.arg0 s.arg1) :=
    toNat_wordOf ((Nat.mul_le_mul (Nat.div_le_self _ _) (Nat.div_le_self _ _)).trans_lt hprod)
  have htlen : s.built.tlen.toNat = tileSide s.arg0 s.arg1 * tileSide s.arg0 s.arg1 :=
    toNat_wordOf ((tileSide_mul_self_le hw hh).trans_lt hprod)
  exact {
    width_pos := by simpa using hw
    height_pos := by simpa using hh
    side_eq := by simp
    tcols_eq := by simp
    trows_eq := by simp
    tcount_eq := by simp [htcount]
    tlen_eq := by simp [htlen]
    nelem_eq := by simp [hl]
    nelem_le_cap := by rw [State.built_nelem_toNat]; exact hc }

/-- A successful command leaves FAULT as it is (60_exceptions.md R183). -/
theorem CommandEffect.faulted_eq {i : Instr} {s u : State} (h : CommandEffect i s u) : u.faulted = s.faulted := by
  rcases h.cases_by_writes with ⟨-, rfl⟩ | ⟨-, rfl⟩ | ⟨r0, r1, r2, rfl, -⟩
  · exact s.built_faulted
  · rfl
  · rfl

/-- No successful command clears VALID (10_state.md R25). -/
theorem CommandEffect.valid_of_valid {i : Instr} {s u : State} (h : CommandEffect i s u) (hv : s.valid = true) :
    u.valid = true := by
  rcases h.cases_by_writes with ⟨-, rfl⟩ | ⟨-, rfl⟩ | ⟨r0, r1, r2, rfl, -⟩
  · exact s.built_valid
  · exact hv
  · exact hv

/-- No command clears VALID, however it ends. -/
theorem valid_of_exec {i : Instr} {s t : State} (h : exec i s = .next t) (hv : s.valid = true) : t.valid = true := by
  rcases exec_next_cases h with ⟨c, -, rfl⟩ | ⟨-, -, rfl⟩ | ⟨u, hu, rfl⟩
  · simpa using hv
  · simpa using hv
  · simpa using hu.valid_of_valid hv

/-- No step but a reset clears VALID. -/
theorem valid_of_step {s t : State} (h : step s = .next t) (hr : s.inbox.head? ≠ some .reset)
    (hv : s.valid = true) : t.valid = true := by
  rcases step_next_cases h with ⟨-, rfl⟩ | ⟨e, rest, hi, hcase⟩
  · exact hv
  · rcases hcase with ⟨rfl, -⟩ | ⟨n, rfl⟩ | ⟨-, -, rfl⟩ | ⟨-, -, n, v, -, rfl⟩ | ⟨-, w, -, hcmd⟩
    · exact absurd (by simp [hi]) hr
    · exact hv
    · exact hv
    · rcases portStore_cases { s with inbox := rest } n v with he | he | he | he <;> rw [he] <;> exact hv
    · rcases hcmd with ⟨-, rfl⟩ | ⟨i, -, hexec⟩
      · rw [State.enterFault_valid]; exact hv
      · exact valid_of_exec hexec hv

end Sys2Proof.Machine

/-! SUPPORT. The invariant: it holds after reset, and each way a step can end keeps it (10_state.md R24 to R32). -/

namespace Sys2Proof.Machine

/-- `t` differs from `s` at most in what the invariant does not speak of: CMD, the argument and result registers, and
the model's own fields but `cap`. -/
def SameGuarded (s t : State) : Prop :=
  t = { s with
    cmd := t.cmd, a0 := t.a0, a1 := t.a1, a2 := t.a2, r0 := t.r0, r1 := t.r1, r2 := t.r2
    epoch := t.epoch, inbox := t.inbox, replies := t.replies }

/-- The invariant speaks of nothing that such states differ in. -/
theorem Inv.of_sameGuarded {s t : State} (h : Inv s) (ht : SameGuarded s t) : Inv t := by
  rw [ht]
  exact { h with
    layout_ok := fun hv => { h.layout_ok hv with }
    layout_zero := fun hv => { h.layout_zero hv with } }

theorem sameGuarded_portStore (s : State) (n : RegNum) (v : Word) : SameGuarded s (portStore s n v) := by
  rcases portStore_cases s n v with he | he | he | he <;> rw [he] <;> exact rfl

/-- An element written below `cap` keeps a memory in order (20_memory.md R60). -/
theorem MemoryOk.write {cap i : Nat} {m : Memory} (h : MemoryOk cap m) (hi : i < cap) (v : Word) :
    MemoryOk cap (m.write i v) where
  wf := Memory.wf_write i v h.wf
  below p hp := by
    rcases Memory.mem_write hp with rfl | hp
    · exact hi
    · exact h.below p hp

/-- The pass of BUILD stays below `cap` when the grid does (R129). -/
theorem MemoryOk.rearrange {cap w h : Nat} {m : Memory} (hm : MemoryOk cap m) (hc : w * h ≤ cap) (s : State) :
    MemoryOk cap (rearrange s w (tileSide w h) h m) :=
  rearrange_induction s w (tileSide w h) h hm fun _ _ _ hx hy hok =>
    hok.write ((destOffset_lt hx hy).trans_le hc) _

/-- The pass of BUILD writes every element below the grid's size (R129). -/
theorem isSome_read_rearrange (s : State) {w h d : Nat} (dst : Memory) (hd : d < w * h) :
    (Memory.read (rearrange s w (tileSide w h) h dst) d).isSome = true := by
  rcases read_rearrange s w (tileSide w h) h dst d with ⟨x, y, -, -, -, hr⟩ | ⟨hno, -⟩
  · rw [hr]; rfl
  · obtain ⟨x, y, hx, hy, he⟩ := exists_destOffset_eq hd
    exact absurd he (hno x y hx hy)

theorem inv_applyReset {s : State} (hc : 1 ≤ s.cap.toNat) : Inv (applyReset s) where
  cap_pos := hc
  status_reserved := by simp
  rc_range := by simp
  cause_range := by simp
  fault_iff_rc := by simp
  fault_iff_cause := by simp
  layout_ok hv := by simp at hv
  layout_zero _ := ⟨rfl, rfl, rfl, rfl, rfl, rfl, rfl, rfl⟩
  src_ok := ⟨List.Pairwise.nil, by simp⟩
  dst_ok := ⟨List.Pairwise.nil, by simp⟩
  dst_filled hv := by simp at hv

/-- Fault entry keeps the invariant (60_exceptions.md R186). -/
theorem Inv.enterFault {s : State} (h : Inv s) (c : Cause) : Inv (s.enterFault c) where
  cap_pos := h.cap_pos
  status_reserved := by rw [State.enterFault_status, reserved_setRc, reserved_setFault, h.status_reserved]
  rc_range := by simp
  cause_range := causeCode_toNat_le c
  fault_iff_rc := by simp
  fault_iff_cause := by simp [causeCode_ne_zero]
  layout_ok hv := { h.layout_ok (by simpa using hv) with }
  layout_zero hv := { h.layout_zero (by simpa using hv) with }
  src_ok := h.src_ok
  dst_ok := h.dst_ok
  dst_filled hv := h.dst_filled (by simpa using hv)

/-- A result code other than 2 keeps the invariant of a block that is not faulted (R182, R183). -/
theorem Inv.withRc {s : State} (h : Inv s) (hf : s.faulted = false) {rc : ResultCode} (hrc : rc ≠ .fault) :
    Inv (s.withRc rc) where
  cap_pos := h.cap_pos
  status_reserved := by rw [State.withRc_status, reserved_setRc, h.status_reserved]
  rc_range := by cases rc <;> simp [rcCode]
  cause_range := h.cause_range
  fault_iff_rc := by
    cases rc with
    | fault => exact absurd rfl hrc
    | ok => simp [hf, rcCode]
    | dimensionMismatch => simp [hf, rcCode]
  fault_iff_cause := by simpa using h.fault_iff_cause
  layout_ok hv := { h.layout_ok (by simpa using hv) with }
  layout_zero hv := { h.layout_zero (by simpa using hv) with }
  src_ok := h.src_ok
  dst_ok := h.dst_ok
  dst_filled hv := h.dst_filled (by simpa using hv)

/-- The writes of a successful BUILD keep the invariant (R29, R32). -/
theorem Inv.built {s : State} (h : Inv s) (hl : s.arg2 = s.arg0 * s.arg1) (h0 : s.arg0 ≠ 0) (h1 : s.arg1 ≠ 0)
    (hc : s.arg2 ≤ s.cap.toNat) : Inv s.built where
  cap_pos := h.cap_pos
  status_reserved := by rw [State.built_status, reserved_setValid, h.status_reserved]
  rc_range := by simpa using h.rc_range
  cause_range := h.cause_range
  fault_iff_rc := by simpa using h.fault_iff_rc
  fault_iff_cause := by rw [State.built_faulted]; exact h.fault_iff_cause
  layout_ok _ := layoutOk_built hl h0 h1 hc
  layout_zero hv := by simp at hv
  src_ok := h.src_ok
  dst_ok := h.dst_ok.rearrange (hl ▸ hc) s
  dst_filled _ d hd := by
    rw [State.built_nelem_toNat, hl] at hd
    exact isSome_read_rearrange s s.dst hd

/-- The write of a successful PUT keeps the invariant (42_layout_access.md R175). -/
theorem Inv.put {s : State} (h : Inv s) (hi : s.arg0 < s.cap.toNat) :
    Inv { s with src := s.src.write s.arg0 s.a1 } :=
  { h with
    layout_ok := fun hv => { h.layout_ok hv with }
    layout_zero := fun hv => { h.layout_zero hv with }
    src_ok := h.src_ok.write hi s.a1 }

/-- The writes of every successful command keep the invariant. -/
theorem Inv.of_effect {i : Instr} {s u : State} (h : Inv s) (hu : CommandEffect i s u) : Inv u := by
  rcases hu.cases_by_writes with ⟨rfl, -⟩ | ⟨rfl, -⟩ | ⟨r0, r1, r2, rfl, -⟩
  · obtain ⟨hl, h0, h1, hc, rfl⟩ := hu
    exact h.built hl h0 h1 hc
  · obtain ⟨hi, rfl⟩ := hu
    exact h.put (of_decide_eq_true hi)
  · exact h.of_sameGuarded rfl

/-- A command in a block that is not faulted keeps the invariant, however it ends (60_exceptions.md R180). -/
theorem Inv.of_exec {i : Instr} {s t : State} (h : Inv s) (hf : s.faulted = false) (he : exec i s = .next t) :
    Inv t := by
  rcases exec_next_cases he with ⟨c, -, rfl⟩ | ⟨-, -, rfl⟩ | ⟨u, hu, rfl⟩
  · exact h.enterFault c
  · exact h.withRc hf (by decide)
  · exact (h.of_effect hu).withRc (hu.faulted_eq.trans hf) (by decide)

/-- Every step keeps the invariant: a reset makes it, a command keeps it, and every other event changes nothing it
speaks of. -/
theorem Inv.of_step {s t : State} (h : Inv s) (hs : step s = .next t) : Inv t := by
  rcases step_next_cases hs with ⟨-, rfl⟩ | ⟨e, rest, -, hcase⟩
  · exact h
  · rcases hcase with ⟨-, rfl⟩ | ⟨n, rfl⟩ | ⟨-, -, rfl⟩ | ⟨-, -, n, v, -, rfl⟩ | ⟨hf, w, -, hcmd⟩
    · exact inv_applyReset h.cap_pos
    · exact h.of_sameGuarded rfl
    · exact h.of_sameGuarded rfl
    · have h' : Inv { s with inbox := rest } := h.of_sameGuarded rfl
      exact h'.of_sameGuarded (sameGuarded_portStore _ n v)
    · have h' : Inv { s with inbox := rest, cmd := w } := h.of_sameGuarded rfl
      rcases hcmd with ⟨-, rfl⟩ | ⟨i, -, hexec⟩
      · exact h'.enterFault .illegalCommand
      · exact h'.of_exec hf hexec

/-- The state after power-on meets the invariant, for every parameter `CAP` but 0 and whatever the host does next. -/
theorem inv_reset {c : Word} (hc : c ≠ 0#32) (events : List HostEvent) :
    Inv { State.reset with cap := c, inbox := events } := by
  have hpos : 1 ≤ c.toNat := Nat.one_le_iff_ne_zero.2 fun h0 => hc (BitVec.eq_of_toNat_eq h0)
  exact (inv_applyReset (s := { State.reset with cap := c }) hpos).of_sameGuarded rfl

end Sys2Proof.Machine

/-! SUPPORT. What follows of a valid layout (10_state.md R29) and of no layout (R30). -/

namespace Sys2Proof.Machine

namespace LayoutOk

variable {s : State}

theorem side_dvd_width (h : LayoutOk s) : s.side.toNat ∣ s.width.toNat := by
  rw [h.side_eq]; exact tileSide_dvd_left _ _

theorem side_dvd_height (h : LayoutOk s) : s.side.toNat ∣ s.height.toNat := by
  rw [h.side_eq]; exact tileSide_dvd_right _ _

theorem side_pos (h : LayoutOk s) : 1 ≤ s.side.toNat := by
  rw [h.side_eq]; exact tileSide_pos _ _

theorem side_eq_pow (h : LayoutOk s) : s.side.toNat = 2 ^ sideExponent s.width.toNat s.height.toNat := by
  rw [h.side_eq]; exact tileSide_eq_pow_sideExponent h.width_pos h.height_pos

/-- The side of a layout never reaches the bound 2^16 of the derivation: its square is at most NELEM, a 32-bit
number. -/
theorem side_le (h : LayoutOk s) : s.side.toNat ≤ 2 ^ 15 := by
  have hsq : s.side.toNat * s.side.toNat < 2 ^ 16 * 2 ^ 16 :=
    calc s.side.toNat * s.side.toNat
      _ ≤ s.width.toNat * s.height.toNat := by
        rw [h.side_eq]; exact tileSide_mul_self_le h.width_pos h.height_pos
      _ = s.nelem.toNat := h.nelem_eq.symm
      _ < 2 ^ 32 := s.nelem.isLt
  have hlt : s.side.toNat < 2 ^ 16 := Nat.mul_self_lt_mul_self_iff.1 hsq
  rw [h.side_eq_pow] at hlt ⊢
  have hexp := (Nat.pow_lt_pow_iff_right (by omega)).1 hlt
  exact Nat.pow_le_pow_right (by omega) (by omega)

theorem tcount_mul_tlen (h : LayoutOk s) : s.tcount.toNat * s.tlen.toNat = s.nelem.toNat := by
  rw [h.tcount_eq, h.tlen_eq, h.nelem_eq, h.tcols_eq, h.trows_eq]
  exact tiles_fill_grid h.side_dvd_width h.side_dvd_height

theorem tcols_pos (h : LayoutOk s) : 1 ≤ s.tcols.toNat := by
  rw [h.tcols_eq]
  exact Nat.div_pos (Nat.le_of_dvd h.width_pos h.side_dvd_width) h.side_pos

theorem trows_pos (h : LayoutOk s) : 1 ≤ s.trows.toNat := by
  rw [h.trows_eq]
  exact Nat.div_pos (Nat.le_of_dvd h.height_pos h.side_dvd_height) h.side_pos

theorem nelem_pos (h : LayoutOk s) : 1 ≤ s.nelem.toNat := by
  rw [h.nelem_eq]; exact Nat.mul_pos h.width_pos h.height_pos

/-- The offset of a local index of a tile is below NELEM (42_layout_access.md R161). -/
theorem tile_offset_lt (h : LayoutOk s) {t m : Nat} (ht : t < s.tcount.toNat) (hm : m < s.tlen.toNat) :
    t * s.tlen.toNat + m < s.nelem.toNat := by
  rw [← h.tcount_mul_tlen, mul_comm t]
  exact Nat.mul_add_lt_mul_of_lt_of_lt ht hm

/-- The forward map of a layout gives the destination of the pass (41_tile_rearranger.md R135). -/
theorem tmap_d (h : LayoutOk s) (x y : Nat) :
    (s.tmap x y).d = destOffset s.width.toNat (tileSide s.width.toNat s.height.toNat) x y := by
  simp only [State.tmap, tmap, destOffset_eq, h.tcols_eq, h.tlen_eq, h.side_eq]

/-- The forward map stays below NELEM (R139). -/
theorem tmap_d_lt (h : LayoutOk s) {x y : Nat} (hx : x < s.width.toNat) (hy : y < s.height.toNat) :
    (s.tmap x y).d < s.nelem.toNat := by
  rw [h.tmap_d, h.nelem_eq]; exact destOffset_lt hx hy

end LayoutOk

/-- The layout registers of the register map (30_encoding.md R81). -/
def layoutRegs : List RegName := [.width, .height, .side, .tcols, .trows, .tcount, .tlen, .nelem]

/-- The register numbers 12 to 19 are those of the layout registers. -/
theorem regOfNumber_layout : ∀ n : RegNum, 12 ≤ n.toNat → n.toNat ≤ 19 →
    ∃ r ∈ layoutRegs, regOfNumber n = some r := by decide

theorem LayoutZero.regValue_eq_zero {s : State} (h : LayoutZero s) {r : RegName} (hr : r ∈ layoutRegs) :
    regValue s r = 0#32 := by
  obtain ⟨hw, hh, hs, htc, htr, ht, hl, hn⟩ := h
  simp only [layoutRegs, List.mem_cons, List.not_mem_nil, or_false] at hr
  rcases hr with rfl | rfl | rfl | rfl | rfl | rfl | rfl | rfl <;> assumption

theorem LayoutZero.portValue_eq_zero {s : State} (h : LayoutZero s) {n : RegNum} (h12 : 12 ≤ n.toNat)
    (h19 : n.toNat ≤ 19) : portValue s n = 0#32 := by
  obtain ⟨r, hr, hn⟩ := regOfNumber_layout n h12 h19
  rw [portValue, hn]
  exact h.regValue_eq_zero hr

/-- An element of DST that has been written is what the commands read. -/
theorem read_eq_some_dstElem {s : State} {d : Nat} (h : (s.dst.read d).isSome = true) :
    s.dst.read d = some (s.dstElem d) := by
  obtain ⟨v, hv⟩ := Option.isSome_iff_exists.1 h
  rw [State.dstElem, hv, Option.getD_some]

/-- Under the invariant a read of DST below NELEM returns a written element (10_state.md R32). -/
theorem Inv.dst_read {s : State} (h : Inv s) (hv : s.valid = true) {d : Nat} (hd : d < s.nelem.toNat) :
    s.dst.read d = some (s.dstElem d) :=
  read_eq_some_dstElem (h.dst_filled hv d hd)

end Sys2Proof.Machine

/-! The statements of 10_state.md. -/

namespace Sys2Proof.Machine

/-- Settles O15: every way a step can end keeps the invariant (`Inv.of_step`). -/
theorem stepKeepsTheInvariant : Obligations.StepKeepsTheInvariant := by
  intro s t h hs
  exact h.of_step hs

/-- Settles O14: the state after power-on is a reset of itself as far as the invariant speaks. -/
theorem resetMeetsTheInvariant : Obligations.ResetMeetsTheInvariant := by
  intro c events hc
  exact inv_reset hc events

/-- Settles O17: the first part is part of the invariant, which holds after reset and which every step keeps; the
second holds of every event but a reset. -/
theorem faultRcAndCauseAgreeAndValidSticks : Obligations.FaultRcAndCauseAgreeAndValidSticks := by
  refine ⟨fun c events k t hc hrun => ?_, fun s t hv hr hs => valid_of_step hs hr hv⟩
  have hinv : Inv t := core_run_induction (fun _ _ h hs => h.of_step hs) (inv_reset hc events) hrun
  exact ⟨hinv.fault_iff_rc, hinv.fault_iff_rc.symm.trans hinv.fault_iff_cause⟩

/-- Settles O21: a failing command writes STATUS and CAUSE only; a successful one is BUILD, PUT, or writes result
registers only. -/
theorem commandsWriteOnlyTheirResultRegisters : Obligations.CommandsWriteOnlyTheirResultRegisters := by
  intro i s t h
  rcases exec_next_cases h with ⟨c, -, rfl⟩ | ⟨-, -, rfl⟩ | ⟨u, hu, rfl⟩
  · simp
  · simp
  · rcases hu.cases_by_writes with ⟨rfl, rfl⟩ | ⟨rfl, rfl⟩ | ⟨r0, r1, r2, rfl, hb, hp, h1, h2⟩
    · simp [State.built, rcCode]
    · simp [rcCode]
    · refine ⟨rfl, rfl, rfl, rfl, rfl, rfl, rfl, rfl, fun hrc => ?_, fun hi => ?_, fun hi => h1 ?_, fun hi => h2 ?_⟩
      · exact absurd (State.withRc_rc _ .ok) hrc
      · simp [hb, hp] at hi
      · simpa [hb, hp] using hi
      · simpa [hb, hp] using hi

/-- Settles O25: a valid layout puts the index of a successful GETM or GETXY below NELEM, where the invariant says
every element has been written. -/
theorem accessorsReturnOnlyBuiltElements : Obligations.AccessorsReturnOnlyBuiltElements := by
  intro i s t hinv hi h hrc
  rcases exec_next_cases h with ⟨c, -, rfl⟩ | ⟨-, -, rfl⟩ | ⟨u, hu, rfl⟩
  · simp at hrc
  · simp [rcCode] at hrc
  · rcases hi with rfl | rfl
    · obtain ⟨hv, ht, hm, -, rfl⟩ := hu
      have hd := (hinv.layout_ok hv).tile_offset_lt (of_decide_eq_true ht) (of_decide_eq_true hm)
      exact ⟨_, hd, hinv.dst_read hv hd⟩
    · obtain ⟨hv, hg, -, rfl⟩ := hu
      simp only [State.argsInGrid, Bool.and_eq_true, decide_eq_true_eq] at hg
      have hd := (hinv.layout_ok hv).tmap_d_lt hg.1 hg.2
      exact ⟨_, hd, hinv.dst_read hv hd⟩

/-- Settles O42: the facts of `LayoutOk`, which the invariant gives when VALID = 1. -/
theorem layoutRegistersFitTogether : Obligations.LayoutRegistersFitTogether := by
  intro s hinv hv
  have h := hinv.layout_ok hv
  exact ⟨h.width_pos, h.height_pos, h.nelem_eq, h.nelem_pos, h.nelem_le_cap, h.side_eq_pow, h.side_le,
    h.side_dvd_width, h.side_dvd_height, h.tcols_eq, h.tcols_pos, h.trows_eq, h.trows_pos, h.tcount_eq, h.tlen_eq,
    h.tcount_mul_tlen⟩

/-- Settles O43: without a layout the registers are 0; with one SIDE is a power of two. -/
theorem layoutRegistersReadZeroWithoutALayout : Obligations.LayoutRegistersReadZeroWithoutALayout := by
  intro s hinv
  refine ⟨fun hv n h12 h19 => (hinv.layout_zero hv).portValue_eq_zero h12 h19, fun hv hside => ?_, fun hside => ?_⟩
  · have hpos := (hinv.layout_ok hv).side_pos
    have hzero : s.side = 0#32 := hside
    simp [hzero] at hpos
  · by_contra hv
    exact hside ((hinv.layout_zero (Bool.eq_false_iff.2 hv)).portValue_eq_zero (by decide) (by decide))

/-- Settles O6: an empty inbox is the idle step; `withFetchWord` puts the write of the word to CMD first. -/
theorem fetchedWordRunsAndIdleStepIsNothing : Obligations.FetchedWordRunsAndIdleStepIsNothing := by
  refine ⟨fun s hs => step_of_inbox_nil hs, fun s w i hf hw hd => ?_⟩
  have hinbox : (s.withFetchWord 32 w).inbox = .hostWrite 0#6 (BitVec.ofNat 32 w) :: s.inbox := by
    rw [State.withFetchWord, Nat.mod_eq_of_lt hw]
  exact step_of_cmd_write (s := s.withFetchWord 32 w) hf hinbox hd

/-- Settles O12: a reset step is `applyReset`, and the state after power-on is a reset of itself in its registers. -/
theorem resetZeroesEveryRegister : Obligations.ResetZeroesEveryRegister := by
  refine ⟨fun r hr => regValue_applyReset State.reset hr, rfl, rfl, fun s rest hi => ?_⟩
  exact ⟨applyReset { s with inbox := rest }, step_of_inbox_cons hi, fun r hr => regValue_applyReset _ hr,
    rfl, rfl, rfl, rfl, rfl⟩

/-- Settles O13: RC is the field of bits 7:4 (`getLsbD_setRc`), FAULT and VALID are one bit each. -/
theorem statusFieldUpdatesTouchOnlyTheirBits : Obligations.StatusFieldUpdatesTouchOnlyTheirBits :=
  ⟨fun w rc _ hi => getLsbD_setRc rc w hi, fun w _ hi => getLsbD_or_twoPow w 0 hi,
    fun w _ hi => getLsbD_or_twoPow w 1 hi⟩

end Sys2Proof.Machine

/-! SUPPORT. No step of a block that meets the invariant stops, but for an access that is not one whole aligned
register (20_memory.md R62, R64). -/

namespace Sys2Proof.Machine

/-- Every command answers a next state: a valid layout puts the element that GETM or GETXY reads below NELEM, and
NELEM is at most CAP (R29). -/
theorem Inv.exec_answers {s : State} (h : Inv s) (i : Instr) : ∃ t, exec i s = .next t := by
  rcases exec_stops_only_outside_cap (i := i) (s := s) with hnext | ⟨-, hv, hout⟩
  · exact hnext
  · have hl := h.layout_ok hv
    exfalso
    rcases hout with ⟨-, ht, hm, hcap⟩ | ⟨-, hg, hcap⟩
    · have hd := hl.tile_offset_lt (of_decide_eq_true ht) (of_decide_eq_true hm)
      exact absurd (hd.trans_le hl.nelem_le_cap) (not_lt.2 hcap)
    · simp only [State.argsInGrid, Bool.and_eq_true, decide_eq_true_eq] at hg
      exact absurd ((hl.tmap_d_lt hg.1 hg.2).trans_le hl.nelem_le_cap) (not_lt.2 hcap)

/-- A written command word is run, or faults the block: a next state either way (30_encoding.md R84, R90). -/
theorem Inv.runCommand_answers {s : State} (h : Inv s) (w : Word) : ∃ t, runCommand w s = .next t := by
  rcases runCommand_cases w s with ⟨e, -, hr⟩ | ⟨i, -, hr⟩
  · exact ⟨_, hr⟩
  · have h' : Inv { s with cmd := w } := h.of_sameGuarded rfl
    rw [hr]
    exact h'.exec_answers i

/-- A step answers a next state, or refuses the next event because it is not well formed. -/
theorem Inv.step_answers_or_refuses {s : State} (h : Inv s) :
    (∃ t, step s = .next t) ∨ (∃ e ∈ s.inbox.head?, e.wf = false ∧ step s = .refused .partialAccess) := by
  cases hi : s.inbox with
  | nil => exact .inl ⟨s, step_of_inbox_nil hi⟩
  | cons e rest =>
    rw [step_of_inbox_cons hi]
    rcases serveEvent_cases e { s with inbox := rest } with
      ⟨-, hs⟩ | ⟨n, hs⟩ | ⟨-, -, hs⟩ | ⟨-, -, n, v, -, hs⟩ | ⟨-, w, -, hs⟩ | ⟨hwf, hs⟩
    · exact .inl ⟨_, hs⟩
    · exact .inl ⟨_, hs⟩
    · exact .inl ⟨_, hs⟩
    · exact .inl ⟨_, hs⟩
    · have h' : Inv { s with inbox := rest } := h.of_sameGuarded rfl
      rw [hs]
      exact .inl (h'.runCommand_answers w)
    · exact .inr ⟨e, rfl, hwf, hs⟩

end Sys2Proof.Machine

/-! SUPPORT. The moves of BUILD's pass as a list: the pass makes them row-major, and any two of them commute, since
they go to different elements (20_memory.md R69, 41_tile_rearranger.md R128, R129). -/

namespace Sys2Proof.Machine

/-- Writes to different elements commute, whatever the order of the memory's entries. -/
theorem Memory.write_comm (m : Memory) {i k : Nat} (u v : Word) (hik : i ≠ k) :
    (m.write i u).write k v = (m.write k v).write i u := by
  wlog hlt : i < k generalizing i k u v
  · exact (this v u hik.symm (by omega)).symm
  have hki : ¬ k < i := by omega
  induction m with
  | nil => simp [Memory.write, hlt, hik.symm, hki]
  | cons p m ih =>
    obtain ⟨j, x⟩ := p
    rcases Nat.lt_trichotomy i j with hij | rfl | hji
    · rcases Nat.lt_trichotomy k j with hkj | rfl | hjk
      · simp [Memory.write, hlt, hij, hkj, hik.symm, hki]
      · simp [Memory.write, hlt, hik.symm, hki]
      · simp [Memory.write, hij, hik.symm, hki, hjk.not_gt, hjk.ne']
    · simp [Memory.write, hik.symm, hki]
    · have hjk : j < k := hji.trans hlt
      simp [Memory.write, ih, hji.not_gt, hji.ne', hjk.not_gt, hjk.ne']

/-- Where the pass moves the source element at an index (R128; the source index is row-major, R176). -/
def moveTarget (w side i : Nat) : Nat := destOffset w side (i % w) (i / w)

/-- The source index of a grid position goes to the destination offset of the position. -/
theorem moveTarget_of_position {w x : Nat} (hx : x < w) (side y : Nat) :
    moveTarget w side (y * w + x) = destOffset w side x y := by
  have hmod : (y * w + x) % w = x := by rw [Nat.mul_add_mod', Nat.mod_eq_of_lt hx]
  have hdiv : (y * w + x) / w = y := by
    rw [mul_comm, Nat.mul_add_div (Nat.zero_lt_of_lt hx), Nat.div_eq_of_lt hx, add_zero]
  rw [moveTarget, hmod, hdiv]

theorem movesInOrder_eq_foldl (s : State) (w side : Nat) (order : List Nat) (dst : Memory) :
    movesInOrder s w side order dst = order.foldl (fun m i => m.write (moveTarget w side i) (s.srcElem i)) dst :=
  rfl

theorem movesInOrder_append (s : State) (w side : Nat) (l l' : List Nat) (dst : Memory) :
    movesInOrder s w side (l ++ l') dst = movesInOrder s w side l' (movesInOrder s w side l dst) :=
  List.foldl_append

theorem movesInOrder_singleton (s : State) (w side i : Nat) (dst : Memory) :
    movesInOrder s w side [i] dst = dst.write (moveTarget w side i) (s.srcElem i) :=
  rfl

/-- The moves of one row are those of its source indices, from left to right (R176). -/
theorem rearrangeRow_eq_movesInOrder (s : State) (w side y : Nat) {n : Nat} (hn : n ≤ w) (dst : Memory) :
    rearrangeRow s w side y n dst = movesInOrder s w side ((List.range n).map (y * w + ·)) dst := by
  induction n with
  | zero => rfl
  | succ x ih =>
    rw [rearrangeRow, ih (by omega), List.range_succ, List.map_append, movesInOrder_append, List.map_singleton,
      movesInOrder_singleton, moveTarget_of_position hn]

/-- The pass makes its moves in the order of the source indices (R128, R176). -/
theorem rearrange_eq_movesInOrder (s : State) (w side h : Nat) (dst : Memory) :
    rearrange s w side h dst = movesInOrder s w side (List.range (w * h)) dst := by
  induction h with
  | zero => rfl
  | succ y ih =>
    rw [rearrange, rearrangeRow_eq_movesInOrder s w side y (le_refl w), ih, Nat.mul_succ, List.range_add,
      movesInOrder_append, mul_comm y w]

/-- The targets of the source indices are the numbers below the grid's size, each once (R129): all are reached, and
there are no more indices than targets. -/
theorem bijOn_moveTarget (w h : Nat) :
    Set.BijOn (moveTarget w (tileSide w h)) (Set.Iio (w * h)) (Set.Iio (w * h)) := by
  have hmaps : Set.MapsTo (moveTarget w (tileSide w h)) (Set.Iio (w * h)) (Set.Iio (w * h)) := fun i hi =>
    destOffset_lt (Nat.mod_lt _ (Nat.pos_of_mul_pos_right (Nat.zero_lt_of_lt hi))) (Nat.div_lt_of_lt_mul hi)
  have hsurj : Set.SurjOn (moveTarget w (tileSide w h)) (Set.Iio (w * h)) (Set.Iio (w * h)) := by
    intro d hd
    obtain ⟨x, y, hx, hy, he⟩ := exists_destOffset_eq hd
    have hi : y * w + x < w * h := by
      rw [mul_comm y, mul_comm w h]; exact Nat.mul_add_lt_mul_of_lt_of_lt hy hx
    exact ⟨y * w + x, hi, (moveTarget_of_position hx _ y).trans he⟩
  have hinj := Finset.injOn_of_surjOn_of_card_le (s := Finset.range (w * h)) (t := Finset.range (w * h)) _
    (by simpa using hmaps) (by simpa using hsurj) (le_refl _)
  exact ⟨hmaps, by simpa using hinj, hsurj⟩

/-- Any two moves of the pass commute: they go to different elements, or are the same move. -/
theorem move_right_comm (s : State) {w h i k : Nat} (hi : i < w * h) (hk : k < w * h) (m : Memory) :
    (m.write (moveTarget w (tileSide w h) i) (s.srcElem i)).write (moveTarget w (tileSide w h) k) (s.srcElem k) =
      (m.write (moveTarget w (tileSide w h) k) (s.srcElem k)).write (moveTarget w (tileSide w h) i) (s.srcElem i) := by
  rcases eq_or_ne i k with rfl | hik
  · rfl
  · exact Memory.write_comm m _ _ ((bijOn_moveTarget w h).injOn.ne hi hk hik)

/-- Orders that are permutations of each other and name source indices of the grid give the same DST. -/
theorem movesInOrder_perm (s : State) (w h : Nat) {order order' : List Nat} (hp : order.Perm order')
    (hlt : ∀ i ∈ order, i < w * h) (dst : Memory) :
    movesInOrder s w (tileSide w h) order dst = movesInOrder s w (tileSide w h) order' dst := by
  rw [movesInOrder_eq_foldl, movesInOrder_eq_foldl]
  exact hp.foldl_eq' (fun i hi k hk m => move_right_comm s (hlt i hi) (hlt k hk) m) dst

end Sys2Proof.Machine

/-! The statements of 20_memory.md. -/

namespace Sys2Proof.Machine

/-- Settles O16: a step of a block that meets the invariant answers a next state or refuses a malformed access
(`Inv.step_answers_or_refuses`). -/
theorem safeStatesStep : Obligations.SafeStatesStep := by
  refine ⟨fun s hs => ?_, fun s f hinv hf => ?_, fun i s hinv => hinv.exec_answers i⟩
  · rcases hs.inv.step_answers_or_refuses with hnext | ⟨e, he, hwf, -⟩
    · exact hnext
    · exact absurd (hs.event e he) (by simp [hwf])
  · rcases hinv.step_answers_or_refuses with ⟨t, ht⟩ | ⟨e, -, -, ht⟩
    · rw [ht] at hf; cases hf
    · rw [ht] at hf; cases hf

/-- Settles O41: the pass is one order of the moves (`rearrange_eq_movesInOrder`), and any permutation of it gives the
same DST because the moves commute. -/
theorem orderOfTheMovesDoesNotMatter : Obligations.OrderOfTheMovesDoesNotMatter := by
  intro s w h order _ _ _ hp
  rw [rearrange_eq_movesInOrder]
  exact movesInOrder_perm s w h hp (fun i hi => List.mem_range.1 (hp.mem_iff.1 hi)) s.dst

end Sys2Proof.Machine

/-! SUPPORT. The command word and its fields, the opcodes and the register numbers: what each map's values are and
which maps undo each other (30_encoding.md R81, R85, R87, R88, R90). -/

namespace Sys2Proof.Machine

/-- The fields ZERO and OP are the whole word (R87). -/
theorem zeroField_append_opField (w : Word) : zeroField w ++ opField w = w :=
  (BitVec.extractLsb'_append_extractLsb'_eq_extractLsb' rfl).trans BitVec.extractLsb'_eq_self

/-- A word is made of its two fields in one way. -/
theorem eq_append_iff (w : Word) (z : BitVec 24) (op : BitVec 8) :
    w = z ++ op ↔ zeroField w = z ∧ opField w = op := by
  constructor
  · rintro rfl
    exact ⟨BitVec.extractLsb'_append_eq_left, BitVec.extractLsb'_append_eq_right⟩
  · rintro ⟨rfl, rfl⟩
    exact (zeroField_append_opField w).symm

theorem instrOfOpcode_eq_some_iff (op : BitVec 8) (i : Instr) : instrOfOpcode op = some i ↔ op = opcodeOf i := by
  constructor
  · intro h
    simp only [instrOfOpcode] at h
    split at h <;> cases h <;> exact BitVec.eq_of_toNat_eq ‹_›
  · rintro rfl
    cases i <;> rfl

/-- A word is a command exactly when ZERO is 0 and OP is the command's opcode (R90). -/
theorem decode_eq_ok_iff_fields (w : Word) (i : Instr) :
    decode w = .ok i ↔ zeroField w = 0#24 ∧ opField w = opcodeOf i := by
  rw [← instrOfOpcode_eq_some_iff, decode]
  by_cases hz : zeroField w = 0#24
  · cases hop : instrOfOpcode (opField w) <;> simp [hz]
  · simp [hz]

theorem decode_eq_ok_iff (w : Word) (i : Instr) : decode w = .ok i ↔ w = encode i := by
  rw [encode, eq_append_iff, decode_eq_ok_iff_fields]

@[simp] theorem decode_encode (i : Instr) : decode (encode i) = .ok i := (decode_eq_ok_iff _ i).2 rfl

theorem mem_all_commands (i : Instr) : i ∈ Instr.all := by cases i <;> decide

theorem commandWords_eq_map_encode : commandWords = Instr.all.map encode := by decide

theorem mem_commandWords_iff (w : Word) : w ∈ commandWords ↔ ∃ i, decode w = .ok i := by
  simp only [commandWords_eq_map_encode, List.mem_map, mem_all_commands, true_and, decode_eq_ok_iff, eq_comm (a := w)]

theorem regOfNumber_eq_some_iff (n : RegNum) (r : RegName) : regOfNumber n = some r ↔ numberOfReg r = n := by
  constructor
  · intro h
    simp only [regOfNumber] at h
    split at h <;> cases h <;> exact (BitVec.eq_of_toNat_eq ‹_›).symm
  · rintro rfl
    cases r <;> rfl

/-- The reserved numbers (R85). -/
theorem regOfNumber_eq_none_iff :
    ∀ n : RegNum, regOfNumber n = none ↔ n.toNat = 7 ∨ n.toNat = 11 ∨ 20 ≤ n.toNat := by
  decide

theorem offsetOfNumber_toNat (n : RegNum) : (offsetOfNumber n).toNat = 4 * n.toNat := by
  rw [offsetOfNumber, BitVec.toNat_ofNat]
  omega

theorem numberAtOffset_toNat (offset : BitVec 8) : (numberAtOffset offset).toNat = offset.toNat / 4 := by
  rw [numberAtOffset, BitVec.toNat_ofNat]
  omega

theorem numberAtOffset_offsetOfNumber (n : RegNum) : numberAtOffset (offsetOfNumber n) = n := by
  apply BitVec.eq_of_toNat_eq
  rw [numberAtOffset_toNat, offsetOfNumber_toNat]
  omega

end Sys2Proof.Machine

/-! SUPPORT. One lemma per kind of event: the step that serves it (30_encoding.md R82 to R86, R90, 20_memory.md R64). -/

namespace Sys2Proof.Machine

theorem windowAccess_wf_iff (offset : BitVec 8) (bytes : Nat) (data : Option Word) :
    (HostEvent.windowAccess offset bytes data).wf = true ↔ bytes = 4 ∧ offset.toNat % 4 = 0 := by
  simp [HostEvent.wf, wholeRegister, alignedOffset]

/-- A whole aligned access is served as the transaction of its register (R81). -/
theorem serveEvent_windowAccess {offset : BitVec 8} {bytes : Nat} {data : Option Word}
    (h : (HostEvent.windowAccess offset bytes data).wf = true) (s : State) :
    serveEvent (.windowAccess offset bytes data) s =
      serveEvent (data.elim (.hostRead (numberAtOffset offset)) (.hostWrite (numberAtOffset offset))) s := by
  have hw : (wholeRegister bytes && alignedOffset offset) = true := h
  cases data <;> simp [serveEvent, hw]

theorem serveEvent_of_not_wf {e : HostEvent} (h : e.wf = false) (s : State) :
    serveEvent e s = .refused .partialAccess := by
  cases e with
  | windowAccess offset bytes data =>
    have hw : (wholeRegister bytes && alignedOffset offset) = false := h
    simp [serveEvent, hw]
  | hostWrite n v => cases h
  | hostRead n => cases h
  | reset => cases h

theorem step_of_hostRead {s : State} {n : RegNum} {rest : List HostEvent} (hi : s.inbox = .hostRead n :: rest) :
    step s = .next { s with inbox := rest, replies := s.replies ++ [portValue s n] } :=
  step_of_inbox_cons hi

theorem hostWrite_of_faulted {s : State} (hf : s.faulted = true) (n : RegNum) (v : Word) :
    hostWrite n v s = .next s := if_pos hf

theorem step_of_hostWrite_of_faulted {s : State} {n : RegNum} {v : Word} {rest : List HostEvent}
    (hf : s.faulted = true) (hi : s.inbox = .hostWrite n v :: rest) : step s = .next { s with inbox := rest } :=
  (step_of_inbox_cons hi).trans (hostWrite_of_faulted (s := { s with inbox := rest }) hf n v)

/-- What a write to a register other than CMD stores does not depend on what is still pending. -/
theorem portStore_inbox (s : State) (n : RegNum) (v : Word) (rest : List HostEvent) :
    portStore { s with inbox := rest } n v = { portStore s n v with inbox := rest } := by
  simp only [portStore]
  split <;> rfl

@[simp] theorem portStore_faulted (s : State) (n : RegNum) (v : Word) : (portStore s n v).faulted = s.faulted := by
  rcases portStore_cases s n v with h | h | h | h <;> rw [h] <;> rfl

/-- A write to a register other than CMD of a block that is not faulted (R83). -/
theorem step_of_hostWrite {s : State} {n : RegNum} {v : Word} {rest : List HostEvent} (hf : s.faulted = false)
    (hn : n ≠ 0#6) (hi : s.inbox = .hostWrite n v :: rest) :
    step s = .next { portStore s n v with inbox := rest } := by
  have hf' : State.faulted { s with inbox := rest } = false := hf
  rw [step_of_inbox_cons hi, ← portStore_inbox]
  simp [serveEvent, hostWrite, hf', hn]

/-- A register that is no argument register keeps its value, and so does everything else (R83). -/
theorem portStore_of_not_argument {n : RegNum} (h4 : n ≠ 4#6) (h5 : n ≠ 5#6) (h6 : n ≠ 6#6) (s : State) (v : Word) :
    portStore s n v = s := by
  have not_named {r : RegName} (hr : regOfNumber n = some r) : n = numberOfReg r :=
    ((regOfNumber_eq_some_iff n r).1 hr).symm
  simp only [portStore]
  split
  · exact absurd (not_named (r := .a0) ‹_›) h4
  · exact absurd (not_named (r := .a1) ‹_›) h5
  · exact absurd (not_named (r := .a2) ‹_›) h6
  all_goals rfl

theorem portValue_of_reserved {n : RegNum} (h : regOfNumber n = none) (s : State) : portValue s n = 0#32 := by
  rw [portValue, h]

theorem portStore_of_reserved {n : RegNum} (h : regOfNumber n = none) (s : State) (v : Word) :
    portStore s n v = s := by
  rw [portStore, h]

/-- A write to a reserved number changes nothing, faulted or not (R85). -/
theorem step_of_hostWrite_reserved {s : State} {n : RegNum} {v : Word} {rest : List HostEvent}
    (hn : regOfNumber n = none) (hi : s.inbox = .hostWrite n v :: rest) : step s = .next { s with inbox := rest } := by
  cases hf : s.faulted with
  | true => exact step_of_hostWrite_of_faulted hf hi
  | false =>
    have hn0 : n ≠ 0#6 := by rintro rfl; cases hn
    rw [step_of_hostWrite hf hn0 hi, portStore_of_reserved hn]

/-- A word that is no command, written to CMD of a block that is not faulted (R90). -/
theorem step_of_illegal_cmd_write {s : State} {w : Word} {rest : List HostEvent} (hf : s.faulted = false)
    (hi : s.inbox = .hostWrite 0#6 w :: rest) (hw : ∀ i, decode w ≠ .ok i) :
    step s = .next (State.enterFault { s with cmd := w, inbox := rest } .illegalCommand) := by
  have hf' : State.faulted { s with inbox := rest } = false := hf
  rw [step_of_inbox_cons hi]
  simp only [serveEvent, hostWrite, hf']
  rcases runCommand_cases w { s with inbox := rest } with ⟨e, -, hr⟩ | ⟨i, hd, -⟩
  · exact hr
  · exact absurd hd (hw i)

end Sys2Proof.Machine

/-! SUPPORT. Serving several events: the argument writes of the macros (30_encoding.md R92), and any events but a reset
in a faulted block (R86). -/

namespace Sys2Proof.Machine

/-- The writes that macros make before their command, as register numbers and values (R92). -/
def argWrites : Macro → List (RegNum × Word)
  | .ilv x y | .side x y | .tmap x y | .getm x y | .getxy x y | .put x y => [(4#6, x), (5#6, y)]
  | .dlv x | .tinv x | .tile x => [(4#6, x)]
  | .build w h n => [(4#6, w), (5#6, h), (6#6, n)]

/-- The state after a list of writes, one after another. -/
def storeAll (s : State) (writes : List (RegNum × Word)) : State :=
  writes.foldl (fun t p => portStore t p.1 p.2) s

theorem eventsOfMacro_eq_argWrites (m : Macro) :
    eventsOfMacro m =
      (argWrites m).map (fun p => .hostWrite p.1 p.2) ++ [.hostWrite 0#6 (encode (instrOfMacro m))] := by
  cases m <;> rfl

theorem storeAll_argWrites (s : State) (m : Macro) : storeAll s (argWrites m) = withMacroArgs s m := by
  cases m <;> rfl

theorem ne_zero_of_mem_argWrites (m : Macro) : ∀ p ∈ argWrites m, p.1 ≠ 0#6 := by
  cases m <;> simp [argWrites]

@[simp] theorem storeAll_cons (s : State) (p : RegNum × Word) (writes : List (RegNum × Word)) :
    storeAll s (p :: writes) = storeAll (portStore s p.1 p.2) writes := rfl

theorem storeAll_inbox (s : State) (writes : List (RegNum × Word)) (rest : List HostEvent) :
    storeAll { s with inbox := rest } writes = { storeAll s writes with inbox := rest } := by
  induction writes generalizing s with
  | nil => rfl
  | cons p writes ih => rw [storeAll_cons, portStore_inbox, ih, storeAll_cons]

@[simp] theorem storeAll_faulted (s : State) (writes : List (RegNum × Word)) :
    (storeAll s writes).faulted = s.faulted := by
  induction writes generalizing s with
  | nil => rfl
  | cons p writes ih => rw [storeAll_cons, ih, portStore_faulted]

/-- Writes to registers other than CMD, served one after another, leave the run at the state they store. -/
theorem core_run_writes {s : State} (writes : List (RegNum × Word)) {rest : List HostEvent} (k : Nat)
    (hf : s.faulted = false) (hn : ∀ p ∈ writes, p.1 ≠ 0#6)
    (hi : s.inbox = writes.map (fun p => .hostWrite p.1 p.2) ++ rest) :
    core.run (writes.length + k) s = core.run k { storeAll s writes with inbox := rest } := by
  induction writes generalizing s with
  | nil =>
    obtain rfl : s.inbox = rest := hi
    rw [List.length_nil, Nat.zero_add]
    rfl
  | cons p writes ih =>
    obtain ⟨hp, hn⟩ := List.forall_mem_cons.1 hn
    have htail := ih (s := { portStore s p.1 p.2 with inbox := writes.map (fun q => .hostWrite q.1 q.2) ++ rest })
      ((portStore_faulted s p.1 p.2).trans hf) hn rfl
    rw [storeAll_inbox] at htail
    rw [List.length_cons, Nat.add_right_comm, core_run_succ_next _ (step_of_hostWrite hf hp hi)]
    exact htail

/-- What serving an event other than a reset does in a faulted block: a read is answered, a write is ignored (R86). -/
theorem step_of_faulted {s : State} {e : HostEvent} {rest : List HostEvent} (hf : s.faulted = true)
    (hi : s.inbox = e :: rest) (hr : e ≠ .reset) (hwf : e.wf = true) :
    step s = .next { s with inbox := rest, replies := s.replies ++ ((readNumber e).map (portValue s)).toList } := by
  have ignored (n : RegNum) (v : Word) : hostWrite n v { s with inbox := rest } =
      .next { s with inbox := rest, replies := s.replies ++ [] } := by
    rw [hostWrite_of_faulted (s := { s with inbox := rest }) hf, List.append_nil]
  rw [step_of_inbox_cons hi]
  cases e with
  | reset => exact absurd rfl hr
  | hostRead n => rfl
  | hostWrite n v => exact ignored n v
  | windowAccess offset bytes data =>
    rw [serveEvent_windowAccess hwf]
    cases data with
    | none => rfl
    | some v => exact ignored _ v

theorem map_filterMap_readNumber_cons (f : RegNum → Word) (e : HostEvent) (events : List HostEvent) :
    ((e :: events).filterMap readNumber).map f =
      ((readNumber e).map f).toList ++ (events.filterMap readNumber).map f := by
  rw [List.filterMap_cons]
  cases readNumber e <;> rfl

/-- A faulted block, through any events but a reset: it answers the reads, in order, and nothing else happens. -/
theorem core_run_of_faulted {s : State} {events rest : List HostEvent} (hf : s.faulted = true)
    (hi : s.inbox = events ++ rest) (hall : ∀ e ∈ events, e ≠ .reset ∧ e.wf = true) :
    core.run events.length s = .next
      { s with inbox := rest, replies := s.replies ++ (events.filterMap readNumber).map (portValue s) } := by
  induction events generalizing s with
  | nil =>
    obtain rfl : s.inbox = rest := hi
    rw [List.filterMap_nil, List.map_nil, List.append_nil]
    rfl
  | cons e events ih =>
    obtain ⟨⟨hr, hwf⟩, hall⟩ := List.forall_mem_cons.1 hall
    have htail := ih
      (s := { s with inbox := events ++ rest, replies := s.replies ++ ((readNumber e).map (portValue s)).toList })
      hf rfl hall
    rw [List.append_assoc] at htail
    rw [List.length_cons, core_run_succ_next _ (step_of_faulted hf hi hr hwf), map_filterMap_readNumber_cons]
    exact htail

end Sys2Proof.Machine

/-! SUPPORT. The argument registers a command does not read (30_encoding.md R88, R89). -/

namespace Sys2Proof.Machine

/-- A command other than BUILD neither reads nor writes A2: its tests are the same with A2 changed, and in each branch
the change is made to the state the command ends in. -/
theorem exec_with_a2 {i : Instr} (hi : i ≠ .build) (s : State) (v : Word) :
    exec i { s with a2 := v } = mapNext (fun t => { t with a2 := v }) (exec i s) := by
  cases i
  case build => exact absurd rfl hi
  case dlv => rfl
  case ilv => simp only [exec, execIlv, apply_ite (mapNext _)]; rfl
  case side => simp only [exec, execSide, apply_ite (mapNext _)]; rfl
  case put => simp only [exec, execPut, apply_ite (mapNext _)]; rfl
  case tmap => simp only [exec, execTmap, apply_ite (mapNext _)]; rfl
  case tinv => simp only [exec, execTinv, apply_ite (mapNext _)]; rfl
  case tile => simp only [exec, execTile, apply_ite (mapNext _)]; rfl
  case getm => simp only [exec, execGetm, loadDst, apply_ite (mapNext _)]; rfl
  case getxy => simp only [exec, execGetxy, loadDst, apply_ite (mapNext _)]; rfl

/-- DLV, TINV and TILE neither read nor write A1. -/
theorem exec_with_a1 {i : Instr} (hi : i ∈ [Instr.dlv, .tinv, .tile]) (s : State) (v : Word) :
    exec i { s with a1 := v } = mapNext (fun t => { t with a1 := v }) (exec i s) := by
  simp only [List.mem_cons, List.not_mem_nil, or_false] at hi
  rcases hi with rfl | rfl | rfl
  · rfl
  · simp only [exec, execTinv, apply_ite (mapNext _)]; rfl
  · simp only [exec, execTile, apply_ite (mapNext _)]; rfl

end Sys2Proof.Machine

/-! The statements of 30_encoding.md. -/

namespace Sys2Proof.Machine

/-- Settles O2: a command word is its two fields (`eq_append_iff`), and each opcode names one command. -/
theorem decodeIsTheInverseOfEncode : Obligations.DecodeIsTheInverseOfEncode := by
  intro w i
  exact decode_eq_ok_iff w i

/-- Settles O3: the ten words are the encodings of the ten commands, and a word that is none of them decodes to no
command. -/
theorem everyOtherCommandWordFaults : Obligations.EveryOtherCommandWordFaults := by
  refine ⟨fun w => (mem_commandWords_iff w).symm, fun s w rest hf hi hw => ?_⟩
  exact step_of_illegal_cmd_write hf hi fun i hd => hw ((mem_commandWords_iff w).2 ⟨i, hd⟩)

/-- Settles O11: serve the argument writes (`core_run_writes`), then the write of the command word. -/
theorem macroRunsItsCommand : Obligations.MacroRunsItsCommand := by
  intro s m rest hf hi
  rw [eventsOfMacro_eq_argWrites, List.append_assoc] at hi
  rw [eventsOfMacro_eq_argWrites, List.length_append, List.length_map,
    core_run_writes (argWrites m) _ hf (ne_zero_of_mem_argWrites m) hi, storeAll_argWrites]
  have hf' : (withMacroArgs s m).faulted = false := by rw [← storeAll_argWrites, storeAll_faulted, hf]
  exact (core_run_one _).trans (step_of_cmd_write hf' rfl (decode_encode _))

/-- Settles O18: the events before the reset leave the block as it is (`core_run_of_faulted`); the reset is
`applyReset`. -/
theorem faultedBlockIgnoresEveryWrite : Obligations.FaultedBlockIgnoresEveryWrite :=
  ⟨fun _ _ _ hf hi hall => core_run_of_faulted hf hi hall,
    fun _ _ _ hi => ⟨_, step_of_inbox_cons hi, applyReset_faulted _⟩⟩

/-- Settles O23: no command but BUILD reads A2, and DLV, TINV and TILE do not read A1. -/
theorem unlistedArgumentsHaveNoEffect : Obligations.UnlistedArgumentsHaveNoEffect := by
  intro s v
  exact ⟨fun i hi => exec_with_a2 hi s v, fun i hi => exec_with_a1 hi s v⟩

/-- Settles O1: each word of the table is the encoding of its command. -/
theorem tableWordsDecodeToTheirCommands : Obligations.TableWordsDecodeToTheirCommands :=
  ⟨decode_encode .ilv, decode_encode .dlv, decode_encode .side, decode_encode .build, decode_encode .tmap,
    decode_encode .tinv, decode_encode .tile, decode_encode .getm, decode_encode .getxy, decode_encode .put⟩

/-- Settles O4: the maps between numbers, registers and offsets. -/
theorem registerNumbersAndOffsets : Obligations.RegisterNumbersAndOffsets :=
  ⟨regOfNumber_eq_some_iff, regOfNumber_eq_none_iff,
    fun n => ⟨offsetOfNumber_toNat n, numberAtOffset_offsetOfNumber n⟩⟩

/-- Settles O5: the write is not ignored, and its word is a command. -/
theorem stepRunsTheDecodedCommand : Obligations.StepRunsTheDecodedCommand := by
  intro s w i rest hf hi hd
  exact step_of_cmd_write hf hi hd

/-- Settles O7: a read answers `portValue`, whose value is given for each register number and for the reserved ones. -/
theorem hostReadReturnsTheRegister : Obligations.HostReadReturnsTheRegister := by
  intro s n rest hi
  refine ⟨portValue s n, step_of_hostRead hi, ?_⟩
  have hreserved := fun h => portValue_of_reserved ((regOfNumber_eq_none_iff n).2 h) s
  refine ⟨?_, ?_, ?_, ?_, ?_, ?_, ?_, ?_, ?_, ?_, ?_, ?_, ?_, ?_, ?_, ?_, ?_, ?_, hreserved⟩ <;> (rintro rfl; rfl)

/-- Settles O8: FAULT is tested first; then A0, A1 and A2 take the value and no other register does. -/
theorem hostWriteReachesOnlyArguments : Obligations.HostWriteReachesOnlyArguments := by
  intro s n v rest hn hi
  refine ⟨fun hf => step_of_hostWrite_of_faulted hf hi, fun hf => ?_⟩
  rw [step_of_hostWrite hf hn hi]
  refine ⟨?_, ?_, ?_, fun h4 h5 h6 => ?_⟩
  · rintro rfl; rfl
  · rintro rfl; rfl
  · rintro rfl; rfl
  · rw [portStore_of_not_argument h4 h5 h6]

/-- Settles O9: a reserved number names no register to read or to write. -/
theorem reservedNumbersNameNoRegister : Obligations.ReservedNumbersNameNoRegister := by
  intro s n v rest hres
  have hn := (regOfNumber_eq_none_iff n).2 hres
  refine ⟨fun hi => ?_, fun hi => step_of_hostWrite_reserved hn hi⟩
  rw [step_of_hostRead hi, portValue_of_reserved hn]

/-- Settles O10: a whole aligned access is served as its register's transaction, and every other event of the window is
ill formed, which the port refuses. -/
theorem windowAccessIsWholeWordsOnly : Obligations.WindowAccessIsWholeWordsOnly := by
  intro s offset bytes data rest hi
  rw [step_of_inbox_cons hi]
  refine ⟨fun hw => ⟨numberAtOffset offset, ?_, ?_, ?_⟩, fun hw => serveEvent_of_not_wf ?_ _⟩
  · rw [numberAtOffset_toNat]
    omega
  · rintro v rfl
    exact serveEvent_windowAccess ((windowAccess_wf_iff _ _ _).2 hw) _
  · rintro rfl
    exact serveEvent_windowAccess ((windowAccess_wf_iff _ _ _).2 hw) _
  · rw [Bool.eq_false_iff, ne_eq, windowAccess_wf_iff]
    omega

end Sys2Proof.Machine

/-! SUPPORT. The bit codec bit by bit (40_bit_codec.md R100, R101): the sum form of a spread value, its split at a power
of two, and the bits of `interleave` and `deinterleave`, which undo each other. -/

namespace Sys2Proof.Machine

theorem spreadBits_eq_sum (n v : Nat) : spreadBits n v = ∑ i ∈ Finset.range n, (v.testBit i).toNat * 4 ^ i := by
  induction n generalizing v with
  | zero => rfl
  | succ n ih =>
    have hshift : ∀ i, (v.testBit (i + 1)).toNat * 4 ^ (i + 1) = 4 * (((v / 2).testBit i).toNat * 4 ^ i) := by
      intro i
      rw [Nat.testBit_succ, pow_succ]
      ring
    rw [spreadBits_succ, ih, Finset.sum_range_succ', Finset.sum_congr rfl fun i _ => hshift i, ← Finset.mul_sum,
      Nat.toNat_testBit, pow_zero, Nat.div_one, pow_zero, Nat.mul_one, Nat.add_comm]

/-- Spreading the low `k` bits and the rest apart. -/
theorem spreadBits_add (k m v : Nat) :
    spreadBits (k + m) v = spreadBits (k + m) (v % 2 ^ k) + 4 ^ k * spreadBits m (v / 2 ^ k) := by
  induction k generalizing v with
  | zero =>
    have := spreadBits_bound_of_lt (n := 0 + m) (k := 0) (v := v % 2 ^ 0) (Nat.mod_lt _ (by decide))
    simp only [pow_zero, Nat.div_one, Nat.zero_add] at this ⊢
    omega
  | succ k ih =>
    have hlow : v % 2 ^ (k + 1) = v % 2 + 2 * (v / 2 % 2 ^ k) := by rw [pow_succ', Nat.mod_mul]
    have hhigh : v / 2 ^ (k + 1) = v / 2 / 2 ^ k := by rw [pow_succ', Nat.div_div_eq_div_mul]
    rw [Nat.add_right_comm k 1 m, spreadBits_succ, spreadBits_succ, hhigh, ih,
      show v % 2 ^ (k + 1) % 2 = v % 2 by omega, show v % 2 ^ (k + 1) / 2 = v / 2 % 2 ^ k by omega]
    ring

/-- One bit spreads to itself. -/
theorem spreadBits_of_lt_two {n v : Nat} (hn : 0 < n) (hv : v < 2) : spreadBits n v = v := by
  obtain ⟨n, rfl⟩ : ∃ m, n = m + 1 := ⟨n - 1, by omega⟩
  have := spreadBits_bound_of_lt (n := n) (k := 0) (v := v / 2) (by omega)
  rw [spreadBits_succ]
  omega

theorem getLsbD_deinterleave_fst (z : Word) {i : Nat} (hi : i < 16) :
    (deinterleave z).1.getLsbD i = z.getLsbD (2 * i) := by
  rw [← BitVec.testBit_toNat, deinterleave_fst_toNat, compressBits_testBit _ _ _ hi, BitVec.testBit_toNat]

theorem getLsbD_deinterleave_snd (z : Word) {i : Nat} (hi : i < 16) :
    (deinterleave z).2.getLsbD i = z.getLsbD (2 * i + 1) := by
  rw [← BitVec.testBit_toNat, deinterleave_snd_toNat, compressBits_testBit _ _ _ hi, ← Nat.testBit_succ,
    BitVec.testBit_toNat]

theorem deinterleave_interleave (x y : Coord) : deinterleave (interleave x y) = (x, y) := by
  refine Prod.ext (BitVec.eq_of_toNat_eq ?_) (BitVec.eq_of_toNat_eq ?_)
  · rw [deinterleave_fst_toNat, interleave_toNat, compressBits_spread, Nat.mod_eq_of_lt x.isLt]
  · rw [deinterleave_snd_toNat, interleave_toNat, compressBits_spread_half, Nat.mod_eq_of_lt y.isLt]

theorem interleave_deinterleave (z : Word) : interleave (deinterleave z).1 (deinterleave z).2 = z := by
  apply BitVec.eq_of_toNat_eq
  rw [interleave_toNat, deinterleave_fst_toNat, deinterleave_snd_toNat, spread_compressBits]
  exact Nat.mod_eq_of_lt z.isLt

theorem getLsbD_interleave_even (x y : Coord) {i : Nat} (hi : i < 16) :
    (interleave x y).getLsbD (2 * i) = x.getLsbD i := by
  rw [← getLsbD_deinterleave_fst _ hi, deinterleave_interleave]

theorem getLsbD_interleave_odd (x y : Coord) {i : Nat} (hi : i < 16) :
    (interleave x y).getLsbD (2 * i + 1) = y.getLsbD i := by
  rw [← getLsbD_deinterleave_snd _ hi, deinterleave_interleave]

/-- A word is the key of the pair its even and its odd bits form. -/
theorem eq_interleave_of_bits {z : Word} {x y : Coord}
    (h : ∀ i, i < 16 → z.getLsbD (2 * i) = x.getLsbD i ∧ z.getLsbD (2 * i + 1) = y.getLsbD i) :
    z = interleave x y := by
  have hx : (deinterleave z).1 = x := BitVec.eq_of_getLsbD_eq fun i hi =>
    (getLsbD_deinterleave_fst z hi).trans (h i hi).1
  have hy : (deinterleave z).2 = y := BitVec.eq_of_getLsbD_eq fun i hi =>
    (getLsbD_deinterleave_snd z hi).trans (h i hi).2
  rw [← interleave_deinterleave z, hx, hy]

/-- Coordinates below 2^k have keys below 4^k. -/
theorem interleave_lt {k : Nat} {x y : Coord} (hx : x.toNat < 2 ^ k) (hy : y.toNat < 2 ^ k) :
    (interleave x y).toNat < 4 ^ k := by
  have := spreadBits_bound_of_lt (n := 16) hx
  have := spreadBits_bound_of_lt (n := 16) hy
  rw [interleave_toNat]
  omega

/-- Keys below 4^k have coordinates below 2^k. -/
theorem deinterleave_lt {k : Nat} {z : Word} (hz : z.toNat < 4 ^ k) :
    (deinterleave z).1.toNat < 2 ^ k ∧ (deinterleave z).2.toNat < 2 ^ k := by
  rw [deinterleave_fst_toNat, deinterleave_snd_toNat]
  exact ⟨compressBits_lt_of_lt hz, compressBits_lt_of_lt ((Nat.div_le_self _ _).trans_lt hz)⟩

/-- The key of a position taken modulo 2^k is below 4^k. -/
theorem interleave_ofNat_mod_lt (k x y : Nat) :
    (interleave (BitVec.ofNat 16 (x % 2 ^ k)) (BitVec.ofNat 16 (y % 2 ^ k))).toNat < 4 ^ k := by
  have hlow : ∀ v, (BitVec.ofNat 16 (v % 2 ^ k)).toNat < 2 ^ k := fun v =>
    (Nat.mod_le _ _).trans_lt (Nat.mod_lt _ (by positivity))
  exact interleave_lt (hlow x) (hlow y)

/-- A key is its quadrant above the key of the position inside the quadrant. -/
theorem interleave_toNat_split {k : Nat} {x y : Coord} (hk : k < 16) (hx : x.toNat < 2 ^ (k + 1))
    (hy : y.toNat < 2 ^ (k + 1)) :
    (interleave x y).toNat =
      (interleave (BitVec.ofNat 16 (x.toNat % 2 ^ k)) (BitVec.ofNat 16 (y.toNat % 2 ^ k))).toNat +
        4 ^ k * (x.toNat / 2 ^ k + 2 * (y.toNat / 2 ^ k)) := by
  have hsplit : ∀ v : Coord, v.toNat < 2 ^ (k + 1) →
      spreadBits 16 v.toNat = spreadBits 16 (BitVec.ofNat 16 (v.toNat % 2 ^ k)).toNat + 4 ^ k * (v.toNat / 2 ^ k) := by
    intro v hv
    have hlow : (BitVec.ofNat 16 (v.toNat % 2 ^ k)).toNat = v.toNat % 2 ^ k :=
      Nat.mod_eq_of_lt ((Nat.mod_le _ _).trans_lt v.isLt)
    have hbit : v.toNat / 2 ^ k < 2 := Nat.div_lt_of_lt_mul (by rwa [pow_succ] at hv)
    have hadd := spreadBits_add k (16 - k) v.toNat
    rwa [Nat.add_sub_cancel' hk.le, spreadBits_of_lt_two (by omega) hbit, ← hlow] at hadd
  rw [interleave_toNat, interleave_toNat, hsplit x hx, hsplit y hy]
  ring

end Sys2Proof.Machine

/-! SUPPORT. The shift-and-mask sequences (40_bit_codec.md R102, R104): every intermediate word holds the bits of one
coordinate in blocks, with a gap as wide as a block above each; a spread step halves the blocks, a compress step doubles
them. -/

namespace Sys2Proof.Machine

/-- `s` holds the bits of `v` in blocks of `b` bits, each below a gap of `b` bits 0. -/
def InBlocks (b : Nat) (v : Coord) (s : Word) : Prop :=
  ∀ c r, r < b → s.getLsbD (b * (2 * c) + r) = v.getLsbD (b * c + r) ∧ s.getLsbD (b * (2 * c + 1) + r) = false

/-- A mask keeps the even blocks of `b` bits. -/
def KeepsEvenBlocks (b : Nat) (mask : Word) : Prop := ∀ j, j < 32 → mask.getLsbD j = decide (j / b % 2 = 0)

/-- A mask makes the gaps: only the blocks themselves are left to show. -/
theorem inBlocks_and {b : Nat} {v : Coord} {t mask : Word} (hm : KeepsEvenBlocks b mask)
    (ht : ∀ c r, r < b → b * (2 * c) + r < 32 → t.getLsbD (b * (2 * c) + r) = v.getLsbD (b * c + r)) :
    InBlocks b v (t &&& mask) := by
  intro c r hr
  have hdiv : ∀ a, (b * a + r) / b = a := fun a => by
    rw [Nat.mul_add_div (by omega), Nat.div_eq_of_lt hr, Nat.add_zero]
  rw [BitVec.getLsbD_and, BitVec.getLsbD_and]
  constructor
  · rcases Nat.lt_or_ge (b * (2 * c) + r) 32 with h | h
    · rw [ht c r hr h, hm _ h, hdiv]
      simp
    · have hv : 16 ≤ b * c + r := by rw [Nat.mul_left_comm] at h; omega
      rw [BitVec.getLsbD_of_ge t _ h, BitVec.getLsbD_of_ge v _ hv, Bool.false_and]
  · rcases Nat.lt_or_ge (b * (2 * c + 1) + r) 32 with h | h
    · rw [hm _ h, hdiv]
      simp
    · rw [BitVec.getLsbD_of_ge t _ h, Bool.false_and]

theorem getLsbD_or_shiftLeft_add (s : Word) {k i : Nat} (h : k + i < 32) :
    (s ||| (s <<< k)).getLsbD (k + i) = (s.getLsbD (k + i) || s.getLsbD i) := by
  rw [BitVec.getLsbD_or, BitVec.getLsbD_shiftLeft, Nat.add_sub_cancel_left]
  simp [h]

/-- The upper half of each block of `2 * k` bits moves up by `k`; the lower half stays. -/
theorem InBlocks.spreadStep {k : Nat} {v : Coord} {s mask : Word} (h : InBlocks (2 * k) v s)
    (hm : KeepsEvenBlocks k mask) : InBlocks k v (spreadStep k mask s) := by
  refine inBlocks_and hm fun c r hr hj => ?_
  obtain ⟨p, rfl | rfl⟩ := Nat.even_or_odd' c
  · obtain ⟨hblock, -⟩ := h p r (by omega)
    rw [show k * (2 * (2 * p)) + r = 2 * k * (2 * p) + r by ring] at hj ⊢
    rw [show k * (2 * p) + r = 2 * k * p + r by ring, ← hblock]
    cases p with
    | zero => simp [hr]
    | succ p =>
      obtain ⟨-, hgap⟩ := h p (k + r) (by omega)
      rw [show 2 * k * (2 * (p + 1)) + r = k + (2 * k * (2 * p + 1) + (k + r)) by ring] at hj ⊢
      rw [getLsbD_or_shiftLeft_add s hj, hgap, Bool.or_false]
  · obtain ⟨-, hgap⟩ := h p r (by omega)
    obtain ⟨hblock, -⟩ := h p (k + r) (by omega)
    rw [show k * (2 * (2 * p + 1)) + r = k + (2 * k * (2 * p) + (k + r)) by ring] at hj ⊢
    rw [getLsbD_or_shiftLeft_add s hj, hblock,
      show k + (2 * k * (2 * p) + (k + r)) = 2 * k * (2 * p + 1) + r by ring, hgap, Bool.false_or,
      show k * (2 * p + 1) + r = 2 * k * p + (k + r) by ring]

/-- Two blocks of `k` bits close up: the upper one moves down by `k`. -/
theorem InBlocks.compressStep {k : Nat} {v : Coord} {s mask : Word} (h : InBlocks k v s)
    (hm : KeepsEvenBlocks (2 * k) mask) : InBlocks (2 * k) v (compressStep k mask s) := by
  refine inBlocks_and hm fun c r hr _ => ?_
  rw [BitVec.getLsbD_or, BitVec.getLsbD_ushiftRight]
  rcases Nat.lt_or_ge r k with hlow | hhigh
  · obtain ⟨hblock, hgap⟩ := h (2 * c) r hlow
    rw [show k + (2 * k * (2 * c) + r) = k * (2 * (2 * c) + 1) + r by ring, hgap, Bool.or_false,
      show 2 * k * (2 * c) + r = k * (2 * (2 * c)) + r by ring, hblock,
      show k * (2 * c) + r = 2 * k * c + r by ring]
  · obtain ⟨r, rfl⟩ := Nat.exists_eq_add_of_le hhigh
    obtain ⟨-, hgap⟩ := h (2 * c) r (by omega)
    obtain ⟨hblock, -⟩ := h (2 * c + 1) r (by omega)
    rw [show k + (2 * k * (2 * c) + (k + r)) = k * (2 * (2 * c + 1)) + r by ring, hblock,
      show 2 * k * (2 * c) + (k + r) = k * (2 * (2 * c) + 1) + r by ring, hgap, Bool.false_or,
      show k * (2 * c + 1) + r = 2 * k * c + (k + r) by ring]

theorem keepsEvenBlocks_masks : KeepsEvenBlocks 1 0x55555555#32 ∧ KeepsEvenBlocks 2 0x33333333#32 ∧
    KeepsEvenBlocks 4 0x0F0F0F0F#32 ∧ KeepsEvenBlocks 8 0x00FF00FF#32 ∧ KeepsEvenBlocks 16 0x0000FFFF#32 := by
  unfold KeepsEvenBlocks
  decide

/-- `spread16` (R102): one block of 16 bits, halved four times. -/
theorem inBlocks_one_spread16 (v : Coord) : InBlocks 1 v (spread16 v) := by
  obtain ⟨m1, m2, m4, m8, -⟩ := keepsEvenBlocks_masks
  have h16 : InBlocks 16 v (v.setWidth 32) := by
    intro c r hr
    rw [BitVec.getLsbD_setWidth, BitVec.getLsbD_setWidth, BitVec.getLsbD_of_ge v (16 * (2 * c + 1) + r) (by omega),
      Bool.and_false]
    cases c with
    | zero => simp [show r < 32 by omega]
    | succ c => simp [BitVec.getLsbD_of_ge v _ (show 16 ≤ 16 * (2 * (c + 1)) + r by omega),
        BitVec.getLsbD_of_ge v _ (show 16 ≤ 16 * (c + 1) + r by omega)]
  have h8 : InBlocks 8 v _ := h16.spreadStep m8
  have h4 : InBlocks 4 v _ := h8.spreadStep m4
  have h2 : InBlocks 2 v _ := h4.spreadStep m2
  exact h2.spreadStep m1

/-- `compress32` (R104): the even bits are 16 blocks of one bit, doubled four times. -/
theorem compress32_eq (w : Word) : compress32 w = (deinterleave w).1 := by
  obtain ⟨m1, m2, m4, m8, m16⟩ := keepsEvenBlocks_masks
  have h1 : InBlocks 1 (deinterleave w).1 (w &&& 0x55555555#32) := by
    refine inBlocks_and m1 fun c r hr hj => ?_
    obtain rfl : r = 0 := by omega
    rw [getLsbD_deinterleave_fst w (by omega)]
    congr 1
    omega
  have h2 : InBlocks 2 (deinterleave w).1 _ := h1.compressStep m2
  have h4 : InBlocks 4 (deinterleave w).1 _ := h2.compressStep m4
  have h8 : InBlocks 8 (deinterleave w).1 _ := h4.compressStep m8
  have h16 : InBlocks 16 (deinterleave w).1 _ := h8.compressStep m16
  refine BitVec.eq_of_getLsbD_eq fun i hi => ?_
  obtain ⟨hblock, -⟩ := h16 0 i hi
  simp only [Nat.mul_zero, Nat.zero_add] at hblock
  rw [compress32, BitVec.getLsbD_extractLsb', Nat.zero_add, hblock, decide_eq_true hi, Bool.true_and]

theorem getLsbD_spread16_even (v : Coord) (i : Nat) : (spread16 v).getLsbD (2 * i) = v.getLsbD i := by
  simpa using (inBlocks_one_spread16 v i 0 (by omega)).1

theorem getLsbD_spread16_odd (v : Coord) (i : Nat) : (spread16 v).getLsbD (2 * i + 1) = false := by
  simpa using (inBlocks_one_spread16 v i 0 (by omega)).2

theorem spread16_eq_interleave (v : Coord) : spread16 v = interleave v 0#16 :=
  eq_interleave_of_bits fun i _ => ⟨getLsbD_spread16_even v i, by simp [getLsbD_spread16_odd]⟩

/-- R103: the shift by one moves y to the odd positions, which `spread16 x` leaves free. -/
theorem spread16_or_shift_eq_interleave (x y : Coord) : spread16 x ||| (spread16 y <<< 1) = interleave x y := by
  refine eq_interleave_of_bits fun i hi => ⟨?_, ?_⟩
  · cases i with
    | zero => simpa using getLsbD_spread16_even x 0
    | succ i =>
      rw [BitVec.getLsbD_or, BitVec.getLsbD_shiftLeft, show 2 * (i + 1) - 1 = 2 * i + 1 by omega,
        getLsbD_spread16_even, getLsbD_spread16_odd, Bool.and_false, Bool.or_false]
  · rw [BitVec.getLsbD_or, BitVec.getLsbD_shiftLeft, Nat.add_sub_cancel, getLsbD_spread16_even, getLsbD_spread16_odd]
    simp [show 2 * i + 1 < 32 by omega]

theorem compress32_ushiftRight_one_eq (w : Word) : compress32 (w >>> 1) = (deinterleave w).2 := by
  rw [compress32_eq]
  refine BitVec.eq_of_getLsbD_eq fun i hi => ?_
  rw [getLsbD_deinterleave_fst _ hi, getLsbD_deinterleave_snd _ hi, BitVec.getLsbD_ushiftRight, Nat.add_comm]

end Sys2Proof.Machine

/-! SUPPORT. Coordinates in registers (30_encoding.md R89, 40_bit_codec.md R105) and the commands ILV and DLV. -/

namespace Sys2Proof.Machine

theorem inDomain_iff (v : Word) : inDomain v = true ↔ v.toNat < 2 ^ 16 := decide_eq_true_iff

theorem getLsbD_coordOf (v : Word) {i : Nat} (hi : i < 16) : (coordOf v).getLsbD i = v.getLsbD i := by
  simp [coordOf, hi]

theorem getLsbD_wordOfCoord (c : Coord) {i : Nat} (hi : i < 16) : (wordOfCoord c).getLsbD i = c.getLsbD i := by
  rw [wordOfCoord, BitVec.getLsbD_setWidth, decide_eq_true (by omega), Bool.true_and]

theorem toNat_wordOfCoord (c : Coord) : (wordOfCoord c).toNat = c.toNat :=
  BitVec.toNat_setWidth_of_le (by decide)

theorem wordOfCoord_lt (c : Coord) : (wordOfCoord c).toNat < 2 ^ 16 := by
  rw [toNat_wordOfCoord]
  exact c.isLt

theorem coordOf_wordOfCoord (c : Coord) : coordOf (wordOfCoord c) = c :=
  BitVec.eq_of_getLsbD_eq fun _ hi => (getLsbD_coordOf _ hi).trans (getLsbD_wordOfCoord c hi)

/-- No truncation within the codec's domain. -/
theorem wordOfCoord_coordOf {v : Word} (hv : v.toNat < 2 ^ 16) : wordOfCoord (coordOf v) = v := by
  apply BitVec.eq_of_toNat_eq
  rw [toNat_wordOfCoord, coordOf, BitVec.extractLsb'_toNat, Nat.shiftRight_zero, Nat.mod_eq_of_lt hv]

theorem exec_ilv_of_lt {s : State} (h0 : s.a0.toNat < 2 ^ 16) (h1 : s.a1.toNat < 2 ^ 16) :
    exec .ilv s = .next ({ s with r0 := interleave (coordOf s.a0) (coordOf s.a1) }.withRc .ok) :=
  exec_of_effect ⟨(inDomain_iff _).2 h0, (inDomain_iff _).2 h1, rfl⟩

theorem exec_ilv_of_ge {s : State} (h : 2 ^ 16 ≤ s.a0.toNat ∨ 2 ^ 16 ≤ s.a1.toNat) :
    exec .ilv s = .next (s.enterFault .domainViolation) := by
  have hout : (inDomain s.a0 && inDomain s.a1) = false := by
    rw [Bool.eq_false_iff, ne_eq, Bool.and_eq_true, inDomain_iff, inDomain_iff]
    omega
  rw [exec, execIlv, hout]
  rfl

theorem exec_dlv (s : State) : exec .dlv s = .next
    ({ s with r0 := wordOfCoord (deinterleave s.a0).1, r1 := wordOfCoord (deinterleave s.a0).2 }.withRc .ok) :=
  exec_of_effect rfl

end Sys2Proof.Machine

/-! The statements of 40_bit_codec.md. -/

namespace Sys2Proof.Machine

/-- Settles O26: the bits are those `deinterleave` reads back, and the key as a number is the two spread values. -/
theorem interleaveMeetsItsBitContract : Obligations.InterleaveMeetsItsBitContract := by
  intro x y
  refine ⟨fun i hi => ⟨getLsbD_interleave_even x y hi, getLsbD_interleave_odd x y hi⟩, ?_⟩
  rw [interleave_toNat, spreadBits_eq_sum, spreadBits_eq_sum, Finset.mul_sum, ← Finset.sum_add_distrib]
  refine Finset.sum_congr rfl fun i _ => ?_
  rw [BitVec.testBit_toNat, BitVec.testBit_toNat]
  ring

/-- Settles O27: bit by bit, as `compressBits` reads them. -/
theorem deinterleaveMeetsItsBitContract : Obligations.DeinterleaveMeetsItsBitContract := by
  intro z i hi
  exact ⟨getLsbD_deinterleave_fst z hi, getLsbD_deinterleave_snd z hi⟩

/-- Settles O28: the sequence halves one block of 16 bits down to single bits (`InBlocks.spreadStep`). -/
theorem spreadSequenceComputesInterleave : Obligations.SpreadSequenceComputesInterleave :=
  ⟨fun x y => (spread16_or_shift_eq_interleave x y).symm, fun v =>
    ⟨spread16_eq_interleave v, fun i _ => ⟨getLsbD_spread16_even v i, getLsbD_spread16_odd v i⟩⟩⟩

/-- Settles O29: the sequence doubles single bits up to one block of 16 (`InBlocks.compressStep`). -/
theorem compressSequenceComputesDeinterleave : Obligations.CompressSequenceComputesDeinterleave := by
  refine ⟨fun z => ?_, fun w i hi => ?_⟩
  · rw [compress32_eq, compress32_ushiftRight_one_eq]
  · rw [compress32_eq, getLsbD_deinterleave_fst w hi]

/-- Settles O30: the functions undo each other; the commands put their results in registers without loss. -/
theorem codecRoundTrips : Obligations.CodecRoundTrips := by
  refine ⟨deinterleave_interleave, interleave_deinterleave, fun s h0 h1 => ?_, fun s => ?_⟩
  · refine ⟨_, _, exec_ilv_of_lt h0 h1, exec_dlv _, ?_, ?_⟩
    · simp [deinterleave_interleave, wordOfCoord_coordOf h0]
    · simp [deinterleave_interleave, wordOfCoord_coordOf h1]
  · refine ⟨_, _, exec_dlv s, exec_ilv_of_lt (wordOfCoord_lt _) (wordOfCoord_lt _), ?_, ?_⟩
    · simp [coordOf_wordOfCoord, interleave_deinterleave]
    · simp [rcCode]

/-- Settles O31: on each square the two functions undo each other and stay within its bounds. -/
theorem interleaveIsABijectionOnEverySquare : Obligations.InterleaveIsABijectionOnEverySquare := by
  have hleft : Function.LeftInverse (fun z : Word => deinterleave z) (fun p => interleave p.1 p.2) :=
    fun p => deinterleave_interleave p.1 p.2
  have hright : Function.RightInverse (fun z : Word => deinterleave z) (fun p => interleave p.1 p.2) :=
    interleave_deinterleave
  refine ⟨⟨hleft.injective, hright.surjective⟩, hleft, hright, fun k _ => ?_⟩
  refine Set.InvOn.bijOn ⟨hleft.leftInvOn _, hright.rightInvOn _⟩ ?_ ?_
  · rintro p ⟨hx, hy⟩
    exact interleave_lt hx hy
  · intro z hz
    exact deinterleave_lt hz

/-- Settles O32: the quadrant is the key's quotient by 4^k, since the key inside the quadrant is below 4^k. -/
theorem keysOfASquareFollowTheZCurve : Obligations.KeysOfASquareFollowTheZCurve := by
  intro k x y hk hx hy
  have hlt := interleave_ofNat_mod_lt k x.toNat y.toNat
  rw [interleave_toNat_split hk hx hy]
  exact ⟨by rw [Nat.add_mul_div_left _ _ (by positivity), Nat.div_eq_of_lt hlt, Nat.zero_add],
    by rw [Nat.add_mul_mod_self_left, Nat.mod_eq_of_lt hlt]⟩

/-- Settles O33: within the domain no bit of an argument is cut off; outside it the domain test fails. -/
theorem ilvInterleavesOrFaults : Obligations.IlvInterleavesOrFaults := by
  refine ⟨decode_encode .ilv, fun s => ⟨fun ⟨h0, h1⟩ => ?_, exec_ilv_of_ge⟩⟩
  refine ⟨interleave (coordOf s.a0) (coordOf s.a1), fun i hi => ?_, exec_ilv_of_lt h0 h1⟩
  rw [getLsbD_interleave_even _ _ hi, getLsbD_interleave_odd _ _ hi, getLsbD_coordOf _ hi, getLsbD_coordOf _ hi]
  exact ⟨rfl, rfl⟩

/-- Settles O34: DLV has no test; its results are coordinates in registers. -/
theorem dlvDeinterleavesEveryKey : Obligations.DlvDeinterleavesEveryKey := by
  refine ⟨decode_encode .dlv, fun s => ?_⟩
  refine ⟨_, _, fun i hi => ?_, wordOfCoord_lt _, wordOfCoord_lt _, exec_dlv s⟩
  rw [getLsbD_wordOfCoord _ hi, getLsbD_wordOfCoord _ hi, getLsbD_deinterleave_fst _ hi, getLsbD_deinterleave_snd _ hi]
  exact ⟨rfl, rfl⟩

end Sys2Proof.Machine

/-! SUPPORT. Numbers in registers, and how SIDE, BUILD, TMAP and TINV answer when a test fails (41_tile_rearranger.md
R125, R127, R136, R138). -/

namespace Sys2Proof.Machine

theorem wordOf_toNat (v : Word) : wordOf v.toNat = v := by
  rw [wordOf, BitVec.ofNat_toNat, BitVec.setWidth_eq]

theorem State.arg0_eq_zero_iff (s : State) : s.arg0 = 0 ↔ s.a0 = 0#32 := BitVec.toNat_inj (y := 0#32)

theorem State.arg1_eq_zero_iff (s : State) : s.arg1 = 0 ↔ s.a1 = 0#32 := BitVec.toNat_inj (y := 0#32)

theorem State.argsInGrid_iff (s : State) :
    s.argsInGrid = true ↔ s.a0.toNat < s.width.toNat ∧ s.a1.toNat < s.height.toNat := by
  rw [State.argsInGrid, Bool.and_eq_true, decide_eq_true_eq, decide_eq_true_eq, State.arg0, State.arg1]

/-- A command that reads the layout faults without one, whatever its arguments. -/
theorem exec_of_not_valid {i : Instr} (hi : i ∈ [Instr.tmap, .tinv, .tile, .getm, .getxy]) {s : State}
    (hv : s.valid = false) : exec i s = .next (s.enterFault .noLayout) := by
  simp only [List.mem_cons, List.not_mem_nil, or_false] at hi
  rcases hi with rfl | rfl | rfl | rfl | rfl
  · rw [exec, execTmap, hv]; rfl
  · rw [exec, execTinv, hv]; rfl
  · rw [exec, execTile, hv]; rfl
  · rw [exec, execGetm, hv]; rfl
  · rw [exec, execGetxy, hv]; rfl

theorem exec_tmap_of_outside {s : State} (hv : s.valid = true)
    (h : s.width.toNat ≤ s.a0.toNat ∨ s.height.toNat ≤ s.a1.toNat) :
    exec .tmap s = .next (s.enterFault .badIndex) := by
  have hout : s.argsInGrid = false := by
    rw [Bool.eq_false_iff, ne_eq, s.argsInGrid_iff]
    omega
  rw [exec, execTmap, hv, hout]
  rfl

theorem exec_tinv_of_le {s : State} (hv : s.valid = true) (h : s.nelem.toNat ≤ s.a0.toNat) :
    exec .tinv s = .next (s.enterFault .badIndex) := by
  have hout : s.argIsOffset = false := decide_eq_false (not_lt.2 h)
  rw [exec, execTinv, hv, hout]
  rfl

theorem exec_side_of_zero {s : State} (h : s.arg0 = 0 ∨ s.arg1 = 0) :
    exec .side s = .next (s.enterFault .zeroDimension) := by
  rw [exec, execSide, if_pos h, raiseFault]

theorem exec_build_of_ne {s : State} (h : s.arg2 ≠ s.arg0 * s.arg1) :
    exec .build s = .next (s.withRc .dimensionMismatch) := by
  rw [exec, execBuild, if_pos h, failDimensionMismatch]

theorem exec_build_of_zero {s : State} (hl : s.arg2 = s.arg0 * s.arg1) (h : s.arg0 = 0 ∨ s.arg1 = 0) :
    exec .build s = .next (s.enterFault .zeroDimension) := by
  rw [exec, execBuild, if_neg (not_not.2 hl), if_pos h, raiseFault]

theorem exec_build_of_cap_lt {s : State} (hl : s.arg2 = s.arg0 * s.arg1) (h0 : s.arg0 ≠ 0) (h1 : s.arg1 ≠ 0)
    (hc : s.cap.toNat < s.arg2) : exec .build s = .next (s.enterFault .badIndex) := by
  rw [exec, execBuild, if_neg (not_not.2 hl), if_neg (not_or.2 ⟨h0, h1⟩), if_pos hc, raiseFault]

end Sys2Proof.Machine

/-! SUPPORT. What DST holds after BUILD's pass, by source index (41_tile_rearranger.md R128 to R130). -/

namespace Sys2Proof.Machine

/-- A row-major index is below the size of its grid. -/
theorem rowMajor_lt {w h x y : Nat} (hx : x < w) (hy : y < h) : y * w + x < w * h := by
  rw [mul_comm y, mul_comm w h]
  exact Nat.mul_add_lt_mul_of_lt_of_lt hy hx

/-- The pass leaves each source element at its target: no other index of the grid has that target. -/
theorem read_rearrange_moveTarget (s : State) {w h i : Nat} (dst : Memory) (hi : i < w * h) :
    Memory.read (rearrange s w (tileSide w h) h dst) (moveTarget w (tileSide w h) i) = some (s.srcElem i) := by
  rcases read_rearrange s w (tileSide w h) h dst (moveTarget w (tileSide w h) i) with
    ⟨x, y, hx, hy, he, hr⟩ | ⟨hno, -⟩
  · have hsame : y * w + x = i :=
      (bijOn_moveTarget w h).injOn (rowMajor_lt hx hy) hi ((moveTarget_of_position hx _ y).trans he)
    rw [hr, hsame]
  · have hw : 0 < w := Nat.pos_of_mul_pos_right (Nat.zero_lt_of_lt hi)
    exact absurd rfl (hno (i % w) (i / w) (Nat.mod_lt _ hw) (Nat.div_lt_of_lt_mul hi))

/-- The pass leaves everything at and above the grid's size. -/
theorem read_rearrange_of_le (s : State) {w h d : Nat} (dst : Memory) (hd : w * h ≤ d) :
    Memory.read (rearrange s w (tileSide w h) h dst) d = Memory.read dst d := by
  rcases read_rearrange s w (tileSide w h) h dst d with ⟨x, y, hx, hy, he, -⟩ | ⟨-, hr⟩
  · have hlt := destOffset_lt hx hy
    omega
  · exact hr

/-- The whole state after a successful BUILD, with WIDTH, HEIGHT and NELEM as the arguments they hold (R126, R130). -/
theorem State.built_withRc_ok (s : State) :
    s.built.withRc .ok =
      { s with
        dst := s.built.dst, width := s.a0, height := s.a1, side := wordOf (tileSide s.arg0 s.arg1)
        tcols := wordOf (s.arg0 / tileSide s.arg0 s.arg1), trows := wordOf (s.arg1 / tileSide s.arg0 s.arg1)
        tcount := wordOf (s.arg0 / tileSide s.arg0 s.arg1 * (s.arg1 / tileSide s.arg0 s.arg1))
        tlen := wordOf (tileSide s.arg0 s.arg1 * tileSide s.arg0 s.arg1), nelem := s.a2
        status := setRc (rcCode .ok) (setValid s.status) } := by
  simp only [State.withRc, State.built, State.arg0, State.arg1, State.arg2, wordOf_toNat]

theorem State.built_dstElem_moveTarget (s : State) {i : Nat} (hi : i < s.arg0 * s.arg1) :
    s.built.dstElem (moveTarget s.arg0 (tileSide s.arg0 s.arg1) i) = s.srcElem i := by
  have hread : s.built.dst.read (moveTarget s.arg0 (tileSide s.arg0 s.arg1) i) = some (s.srcElem i) :=
    read_rearrange_moveTarget s s.dst hi
  rw [State.dstElem, hread, Option.getD_some]

theorem State.built_dstElem_of_le (s : State) {d : Nat} (hd : s.arg0 * s.arg1 ≤ d) :
    s.built.dstElem d = s.dstElem d := by
  have hread : s.built.dst.read d = s.dst.read d := read_rearrange_of_le s s.dst hd
  rw [State.dstElem, hread]
  rfl

/-- The targets of the source indices, listed, are the numbers below the grid's size in another order. -/
theorem map_moveTarget_perm_range (w h : Nat) :
    ((List.range (w * h)).map (moveTarget w (tileSide w h))).Perm (List.range (w * h)) := by
  obtain ⟨hmaps, hinj, hsurj⟩ := bijOn_moveTarget w h
  have hnodup : ((List.range (w * h)).map (moveTarget w (tileSide w h))).Nodup :=
    List.nodup_range.map_on fun i hi k hk he => hinj (List.mem_range.1 hi) (List.mem_range.1 hk) he
  refine (List.perm_ext_iff_of_nodup hnodup List.nodup_range).2 fun d => ?_
  simp only [List.mem_map, List.mem_range]
  exact ⟨fun ⟨i, hi, he⟩ => he ▸ hmaps hi, fun hd => hsurj hd⟩

end Sys2Proof.Machine

/-! SUPPORT. The two address maps of a valid layout (41_tile_rearranger.md R135, R137): both speak of a tile's column
and row, the coordinates in the tile and their local Morton index, and undo each other part by part (R139). -/

namespace Sys2Proof.Machine

/-- The local coordinates come back from their Morton index. -/
theorem deinterleave_mortonIndex {lx ly : Nat} (hx : lx < 2 ^ 16) (hy : ly < 2 ^ 16) :
    (deinterleave (wordOf (mortonIndex lx ly))).1.toNat = lx ∧
      (deinterleave (wordOf (mortonIndex lx ly))).2.toNat = ly := by
  rw [mortonIndex, wordOf_toNat, deinterleave_interleave]
  exact ⟨Nat.mod_eq_of_lt hx, Nat.mod_eq_of_lt hy⟩

/-- The Morton index comes back from its local coordinates. -/
theorem mortonIndex_deinterleave {m : Nat} (hm : m < 2 ^ 32) :
    mortonIndex (deinterleave (wordOf m)).1.toNat (deinterleave (wordOf m)).2.toNat = m := by
  rw [mortonIndex, BitVec.ofNat_toNat, BitVec.ofNat_toNat, BitVec.setWidth_eq, BitVec.setWidth_eq,
    interleave_deinterleave, toNat_wordOf hm]

/-- `k` bits of 1 spread to every second of `2 * k` bits. -/
theorem spreadBits_two_pow_sub_one {n k : Nat} (hk : k ≤ n) : 3 * spreadBits n (2 ^ k - 1) + 1 = 4 ^ k := by
  induction k generalizing n with
  | zero =>
    have := spreadBits_bound_of_lt (n := n) (k := 0) (v := 0) (by decide)
    simp only [pow_zero, Nat.sub_self] at this ⊢
    omega
  | succ k ih =>
    obtain ⟨n, rfl⟩ : ∃ m, n = m + 1 := ⟨n - 1, by omega⟩
    have hpos : 0 < 2 ^ k := by positivity
    have hrest : (2 ^ (k + 1) - 1) / 2 = 2 ^ k - 1 := by omega
    have := ih (n := n) (by omega)
    rw [spreadBits_succ, hrest, pow_succ 4]
    omega

/-- The last coordinates of a square have its last Morton index. -/
theorem mortonIndex_two_pow_sub_one {k : Nat} (hk : k ≤ 16) : mortonIndex (2 ^ k - 1) (2 ^ k - 1) = 4 ^ k - 1 := by
  have hpos : 0 < 2 ^ k := by positivity
  have hle : 2 ^ k ≤ 2 ^ 16 := Nat.pow_le_pow_right (by omega) hk
  have := spreadBits_two_pow_sub_one hk
  rw [mortonIndex_eq (by omega) (by omega)]
  omega

/-- A row-major index gives back its row; `Nat.mul_add_mod_of_lt` gives back its column. -/
theorem mul_add_div_of_lt {a b c : Nat} (hc : c < b) : (a * b + c) / b = a := by
  rw [mul_comm, Nat.mul_add_div (Nat.zero_lt_of_lt hc), Nat.div_eq_of_lt hc, add_zero]

/-- The last of `b` places of the last of `a` rows. -/
theorem pred_mul_add_pred {a b : Nat} (ha : 1 ≤ a) (hb : 1 ≤ b) : (a - 1) * b + (b - 1) = a * b - 1 := by
  obtain ⟨a, rfl⟩ : ∃ c, a = c + 1 := ⟨a - 1, by omega⟩
  rw [Nat.add_sub_cancel, Nat.succ_mul]
  omega

/-- The forward map of a position given by its tile's column and row and its coordinates in the tile (R135). -/
theorem State.tmap_of_local (s : State) (tc tr : Nat) {lx ly : Nat} (hx : lx < s.side.toNat) (hy : ly < s.side.toNat) :
    s.tmap (tc * s.side.toNat + lx) (tr * s.side.toNat + ly) =
      ⟨(tr * s.tcols.toNat + tc) * s.tlen.toNat + mortonIndex lx ly, tr * s.tcols.toNat + tc, mortonIndex lx ly⟩ := by
  simp only [State.tmap, Machine.tmap, mul_add_div_of_lt hx, mul_add_div_of_lt hy,
    Nat.mul_add_mod_of_lt hx, Nat.mul_add_mod_of_lt hy]

/-- The inverse map of an offset given by its tile and its local Morton index (R137). -/
theorem State.tinv_of_tile (s : State) (t : Nat) {m : Nat} (hm : m < s.tlen.toNat) :
    s.tinv (t * s.tlen.toNat + m) =
      ⟨t % s.tcols.toNat * s.side.toNat + (deinterleave (wordOf m)).1.toNat,
        t / s.tcols.toNat * s.side.toNat + (deinterleave (wordOf m)).2.toNat, t⟩ := by
  simp only [State.tinv, Machine.tinv, mul_add_div_of_lt hm, Nat.mul_add_mod_of_lt hm]

namespace LayoutOk

variable {s : State}

theorem tcols_mul_side (h : LayoutOk s) : s.tcols.toNat * s.side.toNat = s.width.toNat := by
  rw [h.tcols_eq, Nat.div_mul_cancel h.side_dvd_width]

theorem trows_mul_side (h : LayoutOk s) : s.trows.toNat * s.side.toNat = s.height.toNat := by
  rw [h.trows_eq, Nat.div_mul_cancel h.side_dvd_height]

theorem tlen_eq_pow (h : LayoutOk s) : s.tlen.toNat = 4 ^ sideExponent s.width.toNat s.height.toNat := by
  rw [h.tlen_eq, h.side_eq_pow, ← mul_pow, show 2 * 2 = 4 from rfl]

theorem tlen_pos (h : LayoutOk s) : 1 ≤ s.tlen.toNat := by
  rw [h.tlen_eq]; exact Nat.mul_pos h.side_pos h.side_pos

theorem tcount_pos (h : LayoutOk s) : 1 ≤ s.tcount.toNat := by
  rw [h.tcount_eq]; exact Nat.mul_pos h.tcols_pos h.trows_pos

theorem column_lt (h : LayoutOk s) {x : Nat} (hx : x < s.width.toNat) : x / s.side.toNat < s.tcols.toNat := by
  rw [h.tcols_eq]; exact Nat.div_lt_div_of_lt_of_dvd h.side_dvd_width hx

theorem row_lt (h : LayoutOk s) {y : Nat} (hy : y < s.height.toNat) : y / s.side.toNat < s.trows.toNat := by
  rw [h.trows_eq]; exact Nat.div_lt_div_of_lt_of_dvd h.side_dvd_height hy

/-- The tile of a column and a row of tiles. -/
theorem tile_index_lt (h : LayoutOk s) {tc tr : Nat} (hc : tc < s.tcols.toNat) (hr : tr < s.trows.toNat) :
    tr * s.tcols.toNat + tc < s.tcount.toNat := by
  rw [h.tcount_eq]; exact rowMajor_lt hc hr

theorem tmap_t_lt (h : LayoutOk s) {x y : Nat} (hx : x < s.width.toNat) (hy : y < s.height.toNat) :
    (s.tmap x y).t < s.tcount.toNat :=
  h.tile_index_lt (h.column_lt hx) (h.row_lt hy)

theorem tmap_m_lt (h : LayoutOk s) (x y : Nat) : (s.tmap x y).m < s.tlen.toNat := by
  have hx := Nat.mod_lt x h.side_pos
  have hy := Nat.mod_lt y h.side_pos
  rw [h.side_eq] at hx hy
  rw [h.tlen_eq, State.tmap, tmap, h.side_eq]
  exact mortonIndex_lt_tile _ _ hx hy

/-- A local Morton index of a tile has its coordinates in the tile (R137). -/
theorem deinterleave_lt_side (h : LayoutOk s) {m : Nat} (hm : m < s.tlen.toNat) :
    (deinterleave (wordOf m)).1.toNat < s.side.toNat ∧ (deinterleave (wordOf m)).2.toNat < s.side.toNat := by
  have hword : (wordOf m).toNat < 4 ^ sideExponent s.width.toNat s.height.toNat := by
    rw [toNat_wordOf (hm.trans s.tlen.isLt), ← h.tlen_eq_pow]
    exact hm
  rw [h.side_eq_pow]
  exact deinterleave_lt hword

theorem tinv_t_lt (h : LayoutOk s) {d : Nat} (hd : d < s.nelem.toNat) : (s.tinv d).t < s.tcount.toNat :=
  Nat.div_lt_of_lt_mul (by rwa [mul_comm, h.tcount_mul_tlen])

theorem tinv_x_lt (h : LayoutOk s) (d : Nat) : (s.tinv d).x < s.width.toNat := by
  rw [← h.tcols_mul_side, mul_comm]
  exact rowMajor_lt (h.deinterleave_lt_side (Nat.mod_lt d h.tlen_pos)).1 (Nat.mod_lt _ h.tcols_pos)

theorem tinv_y_lt (h : LayoutOk s) {d : Nat} (hd : d < s.nelem.toNat) : (s.tinv d).y < s.height.toNat := by
  have hrow : (s.tinv d).t / s.tcols.toNat < s.trows.toNat :=
    Nat.div_lt_of_lt_mul (by rw [← h.tcount_eq]; exact h.tinv_t_lt hd)
  rw [← h.trows_mul_side, mul_comm]
  exact rowMajor_lt (h.deinterleave_lt_side (Nat.mod_lt d h.tlen_pos)).2 hrow

/-- The forward map takes the inverse map's position to the offset it came from, its tile and its local index. -/
theorem tmap_tinv (h : LayoutOk s) (d : Nat) :
    s.tmap (s.tinv d).x (s.tinv d).y = ⟨d, d / s.tlen.toNat, d % s.tlen.toNat⟩ := by
  have hm := Nat.mod_lt d h.tlen_pos
  obtain ⟨hx, hy⟩ := h.deinterleave_lt_side hm
  have hmap := s.tmap_of_local (d / s.tlen.toNat % s.tcols.toNat) (d / s.tlen.toNat / s.tcols.toNat) hx hy
  rwa [mortonIndex_deinterleave (hm.trans s.tlen.isLt), Nat.div_add_mod', Nat.div_add_mod'] at hmap

/-- The inverse map takes the offset of a position back to the position and its tile. -/
theorem tinv_tmap (h : LayoutOk s) {x : Nat} (y : Nat) (hx : x < s.width.toNat) :
    s.tinv (s.tmap x y).d = ⟨x, y, (s.tmap x y).t⟩ := by
  have hlocal : ∀ v, v % s.side.toNat < 2 ^ 16 := fun v =>
    (Nat.mod_lt v h.side_pos).trans_le (h.side_le.trans (by norm_num))
  obtain ⟨hlx, hly⟩ := deinterleave_mortonIndex (hlocal x) (hlocal y)
  have hinv := s.tinv_of_tile (s.tmap x y).t (h.tmap_m_lt x y)
  simp only [State.tmap, tmap, hlx, hly, mul_add_div_of_lt (h.column_lt hx), Nat.mul_add_mod_of_lt (h.column_lt hx),
    Nat.div_add_mod'] at hinv
  exact hinv

/-- The last position of the grid is the last element of the last tile. -/
theorem tmap_last (h : LayoutOk s) : s.tmap (s.width.toNat - 1) (s.height.toNat - 1) =
    ⟨s.nelem.toNat - 1, s.tcount.toNat - 1, s.tlen.toNat - 1⟩ := by
  have hside := h.side_pos
  have hlast : s.side.toNat - 1 < s.side.toNat := by omega
  have hmorton : mortonIndex (s.side.toNat - 1) (s.side.toNat - 1) = s.tlen.toNat - 1 := by
    rw [h.side_eq_pow, h.tlen_eq_pow]
    exact mortonIndex_two_pow_sub_one (min_le_right _ _)
  have hmap := s.tmap_of_local (s.tcols.toNat - 1) (s.trows.toNat - 1) hlast hlast
  rwa [hmorton, pred_mul_add_pred h.tcols_pos hside, pred_mul_add_pred h.trows_pos hside,
    pred_mul_add_pred h.trows_pos h.tcols_pos, h.tcols_mul_side, h.trows_mul_side, mul_comm s.trows.toNat,
    ← h.tcount_eq, pred_mul_add_pred h.tcount_pos h.tlen_pos, h.tcount_mul_tlen] at hmap

/-- With side 1 every tile is one element, and the layout is row-major. -/
theorem tmap_of_side_one (h : LayoutOk s) (hs : s.side.toNat = 1) (x y : Nat) :
    (s.tmap x y).d = y * s.width.toNat + x ∧ (s.tmap x y).m = 0 := by
  have hm : (s.tmap x y).m = 0 := by
    have := h.tmap_m_lt x y
    rw [h.tlen_eq, hs] at this
    omega
  have hd : (s.tmap x y).d = (y / s.side.toNat * s.tcols.toNat + x / s.side.toNat) * s.tlen.toNat + (s.tmap x y).m :=
    rfl
  refine ⟨?_, hm⟩
  rw [hd, hm, h.tlen_eq, h.tcols_eq, hs]
  simp

end LayoutOk

end Sys2Proof.Machine

/-! The statements of 41_tile_rearranger.md. -/

namespace Sys2Proof.Machine

/-- Settles O35: the loop ends at the largest power of two up to 2^16 that divides both dimensions. -/
theorem tileSideClosedForm : Obligations.TileSideClosedForm := by
  intro w h hw hh
  have hsymm : tileSide w h = tileSide h w := by
    rw [tileSide_eq_pow_sideExponent hw hh, tileSide_eq_pow_sideExponent hh hw, sideExponent, sideExponent,
      min_comm (padicValNat 2 w)]
  exact ⟨tileSide_eq_pow_sideExponent hw hh, hsymm, tileSide_le w h, tileSide_dvd_left w h, tileSide_dvd_right w h,
    fun _ hj => le_tileSide hw hh hj⟩

/-- Settles O36: the derived side in closed form goes to R0; a zero dimension fails the only test. -/
theorem sideDerivesTheTileSideOrFaults : Obligations.SideDerivesTheTileSideOrFaults := by
  refine ⟨decode_encode .side, fun s => ⟨fun ⟨ha0, ha1⟩ => ?_, fun hzero => exec_side_of_zero ?_⟩⟩
  · have h0 : s.arg0 ≠ 0 := mt s.arg0_eq_zero_iff.1 ha0
    have h1 : s.arg1 ≠ 0 := mt s.arg1_eq_zero_iff.1 ha1
    have hside := tileSide_eq_pow_sideExponent (Nat.one_le_iff_ne_zero.2 h0) (Nat.one_le_iff_ne_zero.2 h1)
    rw [exec_of_effect (i := .side) ⟨h0, h1, rfl⟩, hside]
    rfl
  · rwa [s.arg0_eq_zero_iff, s.arg1_eq_zero_iff]

/-- Settles O38: the pass leaves each source element at its target (`State.built_dstElem_moveTarget`), the targets are
the offsets below A2, each once (`bijOn_moveTarget`), and nothing else of DST is written. -/
theorem buildRearrangesTheWholeGrid : Obligations.BuildRearrangesTheWholeGrid := by
  refine ⟨decode_encode .build, fun s (hl : s.arg2 = s.arg0 * s.arg1) ha0 ha1 hc => ?_⟩
  have h0 : s.arg0 ≠ 0 := mt s.arg0_eq_zero_iff.1 ha0
  have h1 : s.arg1 ≠ 0 := mt s.arg1_eq_zero_iff.1 ha1
  have hside := tileSide_eq_pow_sideExponent (Nat.one_le_iff_ne_zero.2 h0) (Nat.one_le_iff_ne_zero.2 h1)
  refine ⟨tileSide s.arg0 s.arg1, s.built.dst, s.built.withRc .ok, hside, ?_,
    exec_of_effect (i := .build) ⟨hl, h0, h1, hc, rfl⟩, fun x y hx hy => ?_, fun d hd => ?_, fun d hd => ?_⟩
  · exact s.built_withRc_ok
  · have helem := s.built_dstElem_moveTarget (rowMajor_lt hx hy)
    rwa [moveTarget_of_position (w := s.arg0) hx] at helem
  · obtain ⟨-, hinj, hsurj⟩ := bijOn_moveTarget s.arg0 s.arg1
    have hd' : d < s.arg0 * s.arg1 := hl ▸ hd
    obtain ⟨i, hi, he⟩ := hsurj hd'
    exact ⟨i, ⟨hi.trans_eq hl.symm, he⟩, fun k ⟨hk, hek⟩ => hinj (hk.trans_eq hl) hi (hek.trans he.symm)⟩
  · exact s.built_dstElem_of_le (hl.symm.le.trans hd)

/-- Settles O39: the map is `moveTarget`. -/
theorem rearrangementIsABijection : Obligations.RearrangementIsABijection :=
  fun w h _ _ => bijOn_moveTarget w h

/-- Settles O40: DST at the targets of the source indices, listed in their order, is the list of source elements, and
the targets are the offsets below NELEM in another order. -/
theorem buildMovesEveryElementOnce : Obligations.BuildMovesEveryElementOnce := by
  intro s t hexec hrc
  rcases exec_next_cases hexec with ⟨c, -, rfl⟩ | ⟨-, -, rfl⟩ | ⟨u, ⟨hl, -, -, -, rfl⟩, rfl⟩
  · simp at hrc
  · simp [rcCode] at hrc
  · refine ⟨?_, rfl, fun _ => rfl⟩
    have hmoved : (List.range (s.arg0 * s.arg1)).map s.srcElem =
        ((List.range (s.arg0 * s.arg1)).map (moveTarget s.arg0 (tileSide s.arg0 s.arg1))).map s.built.dstElem := by
      rw [List.map_map]
      exact List.map_congr_left fun i hi => (s.built_dstElem_moveTarget (List.mem_range.1 hi)).symm
    rw [State.withRc_nelem, State.built_nelem_toNat, hl, hmoved]
    exact ((map_moveTarget_perm_range s.arg0 s.arg1).map _).symm

/-- Settles O44: the tests in their order, and the forward map's bounds on a valid layout. -/
theorem tmapGivesTheDestinationOffset : Obligations.TmapGivesTheDestinationOffset := by
  refine ⟨decode_encode .tmap, fun s => ⟨exec_of_not_valid (by decide), exec_tmap_of_outside, fun hv h hx hy => ?_⟩⟩
  have hexec := exec_of_effect (i := .tmap) ⟨hv, s.argsInGrid_iff.2 ⟨hx, hy⟩, rfl⟩
  exact ⟨_, _, _, rfl, rfl, rfl, h.tmap_m_lt s.arg0 s.arg1, h.tmap_t_lt hx hy, h.tmap_d_lt hx hy, hexec⟩

/-- Settles O45: the tests in their order, and the inverse map's bounds on a valid layout. -/
theorem tinvGivesTheGridPosition : Obligations.TinvGivesTheGridPosition := by
  refine ⟨decode_encode .tinv, fun s => ⟨exec_of_not_valid (by decide), exec_tinv_of_le, fun hv h hd => ?_⟩⟩
  obtain ⟨hlx, hly⟩ := h.deinterleave_lt_side (Nat.mod_lt s.a0.toNat h.tlen_pos)
  have hexec := exec_of_effect (i := .tinv) ⟨hv, decide_eq_true hd, rfl⟩
  exact ⟨_, _, _, _, _, _, rfl, rfl, rfl, rfl, rfl, rfl, hlx, hly, h.tinv_x_lt s.arg0, h.tinv_y_lt hd, h.tinv_t_lt hd,
    hexec⟩

/-- Settles O46: the maps undo each other part by part (`LayoutOk.tinv_tmap`, `LayoutOk.tmap_tinv`). -/
theorem addressMapsAreInverse : Obligations.AddressMapsAreInverse := by
  refine fun s h => ⟨fun x y hx hy => ⟨h.tmap_d_lt hx hy, h.tinv_tmap y hx⟩, fun d hd => ?_⟩
  exact ⟨h.tinv_x_lt d, h.tinv_y_lt hd, congrArg Place.d (h.tmap_tinv d)⟩

/-- Settles O47: the last position is the last element of the last tile, and the inverse map takes it back. -/
theorem lastPositionLastOffsetLastTile : Obligations.LastPositionLastOffsetLastTile := by
  intro s h
  have hx : s.width.toNat - 1 < s.width.toNat := Nat.sub_lt h.width_pos (by decide)
  have hinv := h.tinv_tmap (s.height.toNat - 1) hx
  rw [h.tmap_last] at hinv
  exact ⟨h.tmap_last, hinv, fun hs x y _ _ => h.tmap_of_side_one (congrArg BitVec.toNat hs) x y⟩

/-- Settles O37: one lemma for each test, in the order the tests are made. -/
theorem buildChecksInOrderBeforeWriting : Obligations.BuildChecksInOrderBeforeWriting := by
  refine fun s => ⟨exec_build_of_ne, fun hl hzero => exec_build_of_zero hl ?_, fun hl ha0 ha1 hc =>
    exec_build_of_cap_lt hl (mt s.arg0_eq_zero_iff.1 ha0) (mt s.arg1_eq_zero_iff.1 ha1) hc⟩
  rwa [s.arg0_eq_zero_iff, s.arg1_eq_zero_iff]

end Sys2Proof.Machine

/-! SUPPORT. The tiles of a valid layout (42_layout_access.md R161, R162). -/

namespace Sys2Proof.Machine

namespace LayoutOk

variable {s : State}

/-- The range of a tile ends at or below NELEM (R161). -/
theorem tile_end_le (h : LayoutOk s) {t : Nat} (ht : t < s.tcount.toNat) :
    t * s.tlen.toNat + s.tlen.toNat ≤ s.nelem.toNat := by
  rw [← h.tcount_mul_tlen, ← Nat.succ_mul]
  exact Nat.mul_le_mul_right _ ht

/-- The tile of an offset is one of the layout's. -/
theorem tile_of_offset_lt (h : LayoutOk s) {d : Nat} (hd : d < s.nelem.toNat) :
    d / s.tlen.toNat < s.tcount.toNat :=
  h.tinv_t_lt hd

/-- An offset lies in the range of a tile exactly if the tile is its quotient by TLEN. -/
theorem mem_tile_iff (h : LayoutOk s) (t d : Nat) :
    t * s.tlen.toNat ≤ d ∧ d < t * s.tlen.toNat + s.tlen.toNat ↔ d / s.tlen.toNat = t := by
  have hpos := h.tlen_pos
  rw [Nat.div_eq_iff hpos]
  omega

theorem tile_row_lt (h : LayoutOk s) {t : Nat} (ht : t < s.tcount.toNat) : t / s.tcols.toNat < s.trows.toNat :=
  Nat.div_lt_of_lt_mul (h.tcount_eq ▸ ht)

/-- A grid position is in a tile exactly if its column and row of tiles are the tile's (R162). -/
theorem tmap_t_eq_iff (h : LayoutOk s) {x : Nat} (hx : x < s.width.toNat) (y t : Nat) :
    (s.tmap x y).t = t ↔ x / s.side.toNat = t % s.tcols.toNat ∧ y / s.side.toNat = t / s.tcols.toNat := by
  have hcol := h.column_lt hx
  have ht : (s.tmap x y).t = y / s.side.toNat * s.tcols.toNat + x / s.side.toNat := rfl
  rw [ht]
  constructor
  · rintro rfl
    exact ⟨(Nat.mul_add_mod_of_lt hcol).symm, (mul_add_div_of_lt hcol).symm⟩
  · rintro ⟨hc, hr⟩
    rw [hc, hr, Nat.div_add_mod']

/-- The forward map takes the position of a tile's local index back to the tile and the index. -/
theorem tmap_tinv_of_tile (h : LayoutOk s) (t : Nat) {m : Nat} (hm : m < s.tlen.toNat) :
    s.tmap (s.tinv (t * s.tlen.toNat + m)).x (s.tinv (t * s.tlen.toNat + m)).y = ⟨t * s.tlen.toNat + m, t, m⟩ := by
  rw [h.tmap_tinv, mul_add_div_of_lt hm, Nat.mul_add_mod_of_lt hm]

end LayoutOk

end Sys2Proof.Machine

/-! SUPPORT. How TILE, GETM, GETXY and PUT answer at each of their tests (42_layout_access.md R163, R165, R167, R175);
without a layout it is `exec_of_not_valid`. -/

namespace Sys2Proof.Machine

variable {s : State}

theorem exec_tile_of_le (hv : s.valid = true) (h : s.tcount.toNat ≤ s.a0.toNat) :
    exec .tile s = .next (s.enterFault .badIndex) := by
  have hout : s.argIsTile = false := decide_eq_false (not_lt.2 h)
  rw [exec, execTile, hv, hout]
  rfl

theorem exec_getm_of_outside (hv : s.valid = true) (h : s.tcount.toNat ≤ s.a0.toNat ∨ s.tlen.toNat ≤ s.a1.toNat) :
    exec .getm s = .next (s.enterFault .badIndex) := by
  have hout : (s.argIsTile && s.argIsTileElem) = false := by
    rw [Bool.and_eq_false_iff]
    exact h.imp (fun h0 => decide_eq_false (not_lt.2 h0)) (fun h1 => decide_eq_false (not_lt.2 h1))
  rw [exec, execGetm, hv, hout]
  rfl

theorem exec_getxy_of_outside (hv : s.valid = true) (h : s.width.toNat ≤ s.a0.toNat ∨ s.height.toNat ≤ s.a1.toNat) :
    exec .getxy s = .next (s.enterFault .badIndex) := by
  have hout : s.argsInGrid = false := by
    rw [Bool.eq_false_iff, ne_eq, s.argsInGrid_iff]
    omega
  rw [exec, execGetxy, hv, hout]
  rfl

theorem exec_put_of_le (h : s.cap.toNat ≤ s.a0.toNat) : exec .put s = .next (s.enterFault .badIndex) := by
  have hout : s.argIsSrcIndex = false := decide_eq_false (not_lt.2 h)
  rw [exec, execPut, hout]
  rfl

/-- GETM on a valid layout: the element's offset is below NELEM and so below CAP. -/
theorem exec_getm_of_lt (hv : s.valid = true) (h : LayoutOk s) (ht : s.a0.toNat < s.tcount.toNat)
    (hm : s.a1.toNat < s.tlen.toNat) :
    exec .getm s = .next
      (State.afterSuccess { s with r0 := s.dstElem (s.a0.toNat * s.tlen.toNat + s.a1.toNat) }) :=
  exec_of_effect (i := .getm)
    ⟨hv, decide_eq_true ht, decide_eq_true hm, (h.tile_offset_lt ht hm).trans_le h.nelem_le_cap, rfl⟩

/-- GETXY on a valid layout: the element's offset is below NELEM and so below CAP. -/
theorem exec_getxy_of_lt (hv : s.valid = true) (h : LayoutOk s) (hx : s.a0.toNat < s.width.toNat)
    (hy : s.a1.toNat < s.height.toNat) :
    exec .getxy s = .next (State.afterSuccess { s with r0 := s.dstElem (s.tmap s.a0.toNat s.a1.toNat).d }) :=
  exec_of_effect (i := .getxy)
    ⟨hv, s.argsInGrid_iff.2 ⟨hx, hy⟩, (h.tmap_d_lt hx hy).trans_le h.nelem_le_cap, rfl⟩

/-- The elements of SRC after a write to it (20_memory.md R62). -/
theorem State.srcElem_write (s : State) (i k : Nat) (v : Word) :
    State.srcElem { s with src := s.src.write i v } k = if k = i then v else s.srcElem k := by
  simp only [State.srcElem, Memory.read_write]
  split <;> rfl

end Sys2Proof.Machine

/-! SUPPORT. What keeps the layout and DST: every command but a successful BUILD, and every step that is neither that
nor a reset (42_layout_access.md R168, R169). -/

namespace Sys2Proof.Machine

theorem SameLayout.refl (s : State) : SameLayout s s :=
  ⟨rfl, rfl, rfl, rfl, rfl, rfl, rfl, rfl, rfl, rfl, rfl, rfl⟩

theorem SameLayout.trans {s t u : State} (h : SameLayout s t) (h' : SameLayout t u) : SameLayout s u where
  width := h'.width.trans h.width
  height := h'.height.trans h.height
  side := h'.side.trans h.side
  tcols := h'.tcols.trans h.tcols
  trows := h'.trows.trans h.trows
  tcount := h'.tcount.trans h.tcount
  tlen := h'.tlen.trans h.tlen
  nelem := h'.nelem.trans h.nelem
  valid := h'.valid.trans h.valid
  dst := h'.dst.trans h.dst
  epoch := h'.epoch.trans h.epoch
  cap := h'.cap.trans h.cap

theorem sameLayout_enterFault (s : State) (c : Cause) : SameLayout s (s.enterFault c) :=
  { SameLayout.refl s with valid := s.enterFault_valid c }

theorem SameLayout.withRc {s t : State} (h : SameLayout s t) (rc : ResultCode) : SameLayout s (t.withRc rc) :=
  { h with valid := (t.withRc_valid rc).trans h.valid }

theorem sameLayout_portStore (s : State) (n : RegNum) (v : Word) : SameLayout s (portStore s n v) := by
  rcases portStore_cases s n v with he | he | he | he <;> rw [he] <;> exact { SameLayout.refl s with }

/-- A command that is not a BUILD, or does not succeed, keeps the layout and DST (R169). -/
theorem sameLayout_of_exec {i : Instr} {s t : State} (h : exec i s = .next t) (hb : i ≠ .build ∨ t.rc ≠ 0#4) :
    SameLayout s t := by
  rcases exec_next_cases h with ⟨c, -, rfl⟩ | ⟨-, -, rfl⟩ | ⟨u, hu, rfl⟩
  · exact sameLayout_enterFault s c
  · exact (SameLayout.refl s).withRc _
  · have hi : i ≠ .build := hb.resolve_right (not_not.2 (u.withRc_rc .ok))
    refine SameLayout.withRc ?_ _
    rcases hu.cases_by_writes with ⟨hbuild, -⟩ | ⟨-, rfl⟩ | ⟨r0, r1, r2, rfl, -⟩
    · exact absurd hbuild hi
    · exact { SameLayout.refl s with }
    · exact { SameLayout.refl s with }

/-- A command that is not a PUT, or does not succeed, keeps SRC (41_tile_rearranger.md R133). -/
theorem src_eq_of_exec {i : Instr} {s t : State} (h : exec i s = .next t) (hp : i ≠ .put ∨ t.rc ≠ 0#4) :
    t.src = s.src := by
  rcases exec_next_cases h with ⟨c, -, rfl⟩ | ⟨-, -, rfl⟩ | ⟨u, hu, rfl⟩
  · rfl
  · rfl
  · have hi : i ≠ .put := hp.resolve_right (not_not.2 (u.withRc_rc .ok))
    rcases hu.cases_by_writes with ⟨-, rfl⟩ | ⟨hput, -⟩ | ⟨r0, r1, r2, rfl, -⟩
    · rfl
    · exact absurd hput hi
    · rfl

/-- A step that is no reset and no successful BUILD keeps the layout and DST. -/
theorem StepWithoutRebuild.sameLayout {s t : State} (h : StepWithoutRebuild s t) : SameLayout s t := by
  obtain ⟨hs, hreset, hbuild⟩ := h
  rcases step_next_cases hs with ⟨-, rfl⟩ | ⟨e, rest, hi, hcase⟩
  · exact SameLayout.refl _
  · rcases hcase with ⟨rfl, -⟩ | ⟨n, rfl⟩ | ⟨-, -, rfl⟩ | ⟨-, -, n, v, -, rfl⟩ | ⟨hf, w, hw, hcmd⟩
    · exact absurd (by rw [hi]; rfl) hreset
    · exact { SameLayout.refl s with }
    · exact { SameLayout.refl s with }
    · exact { sameLayout_portStore { s with inbox := rest } n v with }
    · rcases hcmd with ⟨-, rfl⟩ | ⟨i, hd, hexec⟩
      · exact { sameLayout_enterFault { s with inbox := rest, cmd := w } .illegalCommand with }
      · have hno : i ≠ .build ∨ t.rc ≠ 0#4 := by
          by_contra! hyes
          obtain ⟨rfl, hrc⟩ := hyes
          have hword : s.inbox.head?.bind commandWord = some (encode .build) := by
            rw [hi, ← (decode_eq_ok_iff w .build).1 hd]
            exact hw
          exact hbuild ⟨hf, hword, hrc⟩
        exact { sameLayout_of_exec hexec hno with }

end Sys2Proof.Machine

/-! SUPPORT. What a successful BUILD leaves for GETXY and GETM to read, and that every step that is no reset and no
successful BUILD keeps it (42_layout_access.md R168). -/

namespace Sys2Proof.Machine

/-- `u` holds a valid layout of the grid A0 by A1 of `s`, and at each position's offset the element that SRC of `s`
holds for the position. -/
structure HoldsBuildOf (s u : State) : Prop where
  valid : u.valid = true
  layout : LayoutOk u
  width : u.width = s.a0
  height : u.height = s.a1
  elem : ∀ x y, x < s.a0.toNat → y < s.a1.toNat → u.dstElem (u.tmap x y).d = s.srcElem (y * s.a0.toNat + x)

/-- A successful BUILD leaves the elements of SRC where the forward map says (41_tile_rearranger.md R128, R135). -/
theorem holdsBuildOf_built {s : State} (hl : s.arg2 = s.arg0 * s.arg1) (h0 : s.arg0 ≠ 0) (h1 : s.arg1 ≠ 0)
    (hc : s.arg2 ≤ s.cap.toNat) : HoldsBuildOf s s.built where
  valid := s.built_valid
  layout := layoutOk_built hl h0 h1 hc
  width := wordOf_toNat s.a0
  height := wordOf_toNat s.a1
  elem x y hx hy := by
    rw [(layoutOk_built hl h0 h1 hc).tmap_d, State.built_width_toNat, State.built_height_toNat,
      ← moveTarget_of_position (w := s.arg0) hx]
    exact s.built_dstElem_moveTarget (rowMajor_lt hx hy)

theorem LayoutOk.of_sameLayout {s t : State} (h : LayoutOk s) (ht : SameLayout s t) : LayoutOk t where
  width_pos := ht.width ▸ h.width_pos
  height_pos := ht.height ▸ h.height_pos
  side_eq := by rw [ht.side, ht.width, ht.height, h.side_eq]
  tcols_eq := by rw [ht.tcols, ht.width, ht.side, h.tcols_eq]
  trows_eq := by rw [ht.trows, ht.height, ht.side, h.trows_eq]
  tcount_eq := by rw [ht.tcount, ht.tcols, ht.trows, h.tcount_eq]
  tlen_eq := by rw [ht.tlen, ht.side, h.tlen_eq]
  nelem_eq := by rw [ht.nelem, ht.width, ht.height, h.nelem_eq]
  nelem_le_cap := by rw [ht.nelem, ht.cap]; exact h.nelem_le_cap

theorem SameLayout.tmap_eq {s t : State} (h : SameLayout s t) (x y : Nat) : t.tmap x y = s.tmap x y := by
  rw [State.tmap, State.tmap, h.side, h.tcols, h.tlen]

theorem SameLayout.dstElem_eq {s t : State} (h : SameLayout s t) (d : Nat) : t.dstElem d = s.dstElem d := by
  rw [State.dstElem, State.dstElem, h.dst, h.epoch]

theorem HoldsBuildOf.of_sameLayout {s u v : State} (h : HoldsBuildOf s u) (hv : SameLayout u v) :
    HoldsBuildOf s v where
  valid := hv.valid.trans h.valid
  layout := h.layout.of_sameLayout hv
  width := hv.width.trans h.width
  height := hv.height.trans h.height
  elem x y hx hy := by rw [hv.tmap_eq, hv.dstElem_eq, h.elem x y hx hy]

/-- A BUILD that answers RC = 0 has passed its tests and made its writes. -/
theorem holdsBuildOf_of_exec {s b : State} (hb : exec .build s = .next b) (hrc : b.rc = 0#4) : HoldsBuildOf s b := by
  rcases exec_next_cases hb with ⟨c, -, rfl⟩ | ⟨-, -, rfl⟩ | ⟨u, ⟨hl, h0, h1, hc, rfl⟩, rfl⟩
  · simp at hrc
  · simp [rcCode] at hrc
  · exact (holdsBuildOf_built hl h0 h1 hc).of_sameLayout ((SameLayout.refl _).withRc _)

theorem sameLayout_of_steps {b u : State} (h : Relation.ReflTransGen StepWithoutRebuild b u) : SameLayout b u := by
  induction h with
  | refl => exact SameLayout.refl b
  | tail _ hstep ih => exact ih.trans hstep.sameLayout

/-- GETXY returns the element that SRC held for the position at the BUILD. -/
theorem HoldsBuildOf.exec_getxy {s u : State} (h : HoldsBuildOf s u) (hx : u.a0.toNat < s.a0.toNat)
    (hy : u.a1.toNat < s.a1.toNat) :
    exec .getxy u = .next
      (State.afterSuccess { u with r0 := s.srcElem (u.a1.toNat * s.a0.toNat + u.a0.toNat) }) := by
  rw [← h.elem _ _ hx hy]
  exact exec_getxy_of_lt h.valid h.layout (h.width ▸ hx) (h.height ▸ hy)

/-- GETM returns the element that SRC held at the BUILD for the position the inverse map gives. -/
theorem HoldsBuildOf.exec_getm {s u : State} (h : HoldsBuildOf s u) (ht : u.a0.toNat < u.tcount.toNat)
    (hm : u.a1.toNat < u.tlen.toNat) :
    ∃ x y : Nat, x < s.a0.toNat ∧ y < s.a1.toNat ∧
      u.tinv (u.a0.toNat * u.tlen.toNat + u.a1.toNat) = ⟨x, y, u.a0.toNat⟩ ∧
      exec .getm u = .next (State.afterSuccess { u with r0 := s.srcElem (y * s.a0.toNat + x) }) := by
  have hd := h.layout.tile_offset_lt ht hm
  have hx := h.layout.tinv_x_lt (u.a0.toNat * u.tlen.toNat + u.a1.toNat)
  have hy := h.layout.tinv_y_lt hd
  rw [h.width] at hx
  rw [h.height] at hy
  have htile : (u.tinv (u.a0.toNat * u.tlen.toNat + u.a1.toNat)).t = u.a0.toNat := mul_add_div_of_lt hm
  refine ⟨_, _, hx, hy, congrArg (Position.mk _ _) htile, ?_⟩
  rw [← h.elem _ _ hx hy, h.layout.tmap_tinv]
  exact exec_getm_of_lt h.valid h.layout ht hm

end Sys2Proof.Machine

/-! The statements of 42_layout_access.md. -/

namespace Sys2Proof.Machine

/-- Settles O22: one lemma for the layout and DST, one for SRC. -/
theorem onlyBuildChangesTheLayout : Obligations.OnlyBuildChangesTheLayout :=
  fun _ _ _ h => ⟨sameLayout_of_exec h, src_eq_of_exec h⟩

/-- Settles O48: an offset's tile is its quotient by TLEN (`LayoutOk.mem_tile_iff`). -/
theorem tilesAreDisjointAndCoverTheLayout : Obligations.TilesAreDisjointAndCoverTheLayout := by
  refine fun s h => ⟨fun t ht => h.tile_end_le ht, fun d hd => ?_⟩
  exact ⟨d / s.tlen.toNat, ⟨h.tile_of_offset_lt hd, (h.mem_tile_iff _ d).2 rfl⟩,
    fun t ⟨_, hmem⟩ => ((h.mem_tile_iff t d).1 hmem).symm⟩

/-- Settles O49: the position of a tile's local index is the one the inverse map gives. -/
theorem tileHoldsItsSquareOfTheGrid : Obligations.TileHoldsItsSquareOfTheGrid := by
  refine fun s h t ht => ⟨fun x y hx _ => h.tmap_t_eq_iff hx y t, fun m hm => ?_⟩
  have hd := h.tile_offset_lt ht hm
  have hx := h.tinv_x_lt (t * s.tlen.toNat + m)
  have hy := h.tinv_y_lt hd
  have hmap := h.tmap_tinv_of_tile t hm
  rw [s.tinv_of_tile t hm] at hx hy hmap
  obtain ⟨hcol, hrow⟩ := (h.tmap_t_eq_iff hx _ t).1 (congrArg Place.t hmap)
  exact ⟨_, _, rfl, rfl, hx, hy, hcol, hrow, hmap⟩

/-- Settles O50: the tests in their order; the three results fit a register, since the offset is below NELEM and the
other two are no larger than A0. -/
theorem tileGivesOffsetColumnAndRow : Obligations.TileGivesOffsetColumnAndRow := by
  refine ⟨decode_encode .tile, fun s => ⟨exec_of_not_valid (by decide), exec_tile_of_le, fun hv h ht => ?_⟩⟩
  have hend := h.tile_end_le ht
  have hoffset : (wordOf (s.arg0 * s.tlen.toNat)).toNat = s.a0.toNat * s.tlen.toNat :=
    toNat_wordOf (((Nat.le_add_right _ _).trans hend).trans_lt s.nelem.isLt)
  have hcolumn : (wordOf (s.arg0 % s.tcols.toNat)).toNat = s.a0.toNat % s.tcols.toNat :=
    toNat_wordOf ((Nat.mod_le _ _).trans_lt s.a0.isLt)
  have hrow : (wordOf (s.arg0 / s.tcols.toNat)).toNat = s.a0.toNat / s.tcols.toNat :=
    toNat_wordOf ((Nat.div_le_self _ _).trans_lt s.a0.isLt)
  have hexec := exec_of_effect (i := .tile) ⟨hv, decide_eq_true ht, rfl⟩
  exact ⟨_, _, _, hoffset, hcolumn, hrow, (Nat.add_le_add_right hoffset.le _).trans hend,
    hcolumn.trans_lt (Nat.mod_lt _ h.tcols_pos), hrow.trans_lt (h.tile_row_lt ht), hexec⟩

/-- Settles O51: the tests in their order, and the tile's range below NELEM. -/
theorem getmReadsTheTileElement : Obligations.GetmReadsTheTileElement :=
  ⟨decode_encode .getm, fun _ => ⟨exec_of_not_valid (by decide), exec_getm_of_outside, fun hv h ht hm =>
    ⟨h.tile_offset_lt ht hm, exec_getm_of_lt hv h ht hm⟩⟩⟩

/-- Settles O52: the tests in their order, and the forward map's bound. -/
theorem getxyReadsTheGridElement : Obligations.GetxyReadsTheGridElement :=
  ⟨decode_encode .getxy, fun _ => ⟨exec_of_not_valid (by decide), exec_getxy_of_outside, fun hv h hx hy =>
    ⟨h.tmap_d_lt hx hy, exec_getxy_of_lt hv h hx hy⟩⟩⟩

/-- Settles O53: the one test, and SRC after the one write. -/
theorem putStoresOneSourceElement : Obligations.PutStoresOneSourceElement := by
  refine ⟨decode_encode .put, fun s => ⟨exec_put_of_le, fun hi => ?_⟩⟩
  have hexec := exec_of_effect (i := .put) (s := s) ⟨decide_eq_true hi, rfl⟩
  exact ⟨s.src.write s.arg0 s.a1, _, rfl, hexec, fun i => s.srcElem_write s.arg0 i s.a1, fun _ => rfl⟩

/-- Settles O54: the BUILD leaves the elements where the maps say (`holdsBuildOf_of_exec`), the steps after it keep them
there (`sameLayout_of_steps`), and GETXY and GETM read them. -/
theorem elementsReadBackAsBuilt : Obligations.ElementsReadBackAsBuilt := by
  intro s b u hb hrc hsteps
  have hsame := sameLayout_of_steps hsteps
  have h : HoldsBuildOf s u := (holdsBuildOf_of_exec hb hrc).of_sameLayout hsame
  rw [← hsame.tcount, ← hsame.tlen]
  exact ⟨h.exec_getxy, h.exec_getm⟩

end Sys2Proof.Machine

/-! SUPPORT. What a command does to FAULT, CAUSE and RC in each of the ways it can end, and for every row of the failure
table a state in which the command raises the cause (60_exceptions.md R180 to R193). -/

namespace Sys2Proof.Machine

/-- A successful command leaves CAUSE as it is (R183). -/
theorem CommandEffect.cause_eq {i : Instr} {s u : State} (h : CommandEffect i s u) : u.cause = s.cause := by
  rcases h.cases_by_writes with ⟨-, rfl⟩ | ⟨-, rfl⟩ | ⟨r0, r1, r2, rfl, -⟩ <;> rfl

/-- The fault rows of R193 list for each command the causes it can raise. -/
theorem mem_faultTable_iff (i : Instr) (c : Cause) : (i, c) ∈ faultTable ↔ c ∈ causesOf i := by
  cases i <;> cases c <;> decide

/-- A command that faults a block that was not faulted has raised one of its causes. -/
theorem exec_raises_causesOf {i : Instr} {s t : State} (h : exec i s = .next t) (hs : s.faulted = false)
    (ht : t.faulted = true) : ∃ c ∈ causesOf i, t = s.enterFault c := by
  rcases exec_next_cases h with hfault | ⟨-, -, rfl⟩ | ⟨u, hu, rfl⟩
  · exact hfault
  · rw [State.withRc_faulted, hs] at ht
    cases ht
  · rw [State.withRc_faulted, hu.faulted_eq, hs] at ht
    cases ht

/-- The layout of a grid of one element, and arguments too large for every test against a register: A0 is the largest
register value, and A2 is the product A0 * A1. -/
def oversizedArgs : State :=
  { State.built { State.reset with a0 := 1#32, a1 := 1#32, a2 := 1#32 } with
    a0 := 0xFFFFFFFF#32, a1 := 1#32, a2 := 0xFFFFFFFF#32 }

theorem oversizedArgs_faulted : oversizedArgs.faulted = false := State.built_faulted _

theorem oversizedArgs_valid : oversizedArgs.valid = true := State.built_valid _

theorem toNat_le_oversizedArgs_a0 (v : Word) : v.toNat ≤ oversizedArgs.a0.toNat := Nat.le_of_lt_succ v.isLt

theorem exec_oversizedArgs_badIndex {i : Instr} (h : (i, Cause.badIndex) ∈ faultTable) :
    exec i oversizedArgs = .next (oversizedArgs.enterFault .badIndex) := by
  have hv := oversizedArgs_valid
  have hle := toNat_le_oversizedArgs_a0
  rw [mem_faultTable_iff] at h
  cases i
  case build => exact exec_build_of_cap_lt (by decide) (by decide) (by decide) (by decide)
  case tmap => exact exec_tmap_of_outside hv (.inl (hle _))
  case tinv => exact exec_tinv_of_le hv (hle _)
  case tile => exact exec_tile_of_le hv (hle _)
  case getm => exact exec_getm_of_outside hv (.inl (hle _))
  case getxy => exact exec_getxy_of_outside hv (.inl (hle _))
  case put => exact exec_put_of_le (hle _)
  case ilv | dlv | side => simp [causesOf] at h

/-- Every fault row of the table arises: after reset there is no layout and the dimensions are 0; the other causes are
raised for the oversized arguments. -/
theorem exists_exec_raises {i : Instr} {c : Cause} (h : (i, c) ∈ faultTable) :
    ∃ s : State, s.faulted = false ∧ exec i s = .next (s.enterFault c) := by
  cases c
  case domainViolation =>
    obtain rfl : i = .ilv := by simpa [faultTable] using h
    exact ⟨oversizedArgs, oversizedArgs_faulted, exec_ilv_of_ge (.inl (by decide))⟩
  case zeroDimension =>
    obtain rfl | rfl : i = .side ∨ i = .build := by simpa [faultTable] using h
    · exact ⟨State.reset, rfl, exec_side_of_zero (.inl rfl)⟩
    · exact ⟨State.reset, rfl, exec_build_of_zero rfl (.inl rfl)⟩
  case illegalCommand => simp [faultTable] at h
  case noLayout => exact ⟨State.reset, rfl, exec_of_not_valid (by simpa [faultTable] using h) rfl⟩
  case badIndex => exact ⟨oversizedArgs, oversizedArgs_faulted, exec_oversizedArgs_badIndex h⟩

/-- Only BUILD ends with RC = 1 (R182). -/
theorem eq_build_of_exec_rc_one {i : Instr} {s t : State} (h : exec i s = .next t) (hrc : t.rc = 1#4) :
    i = .build := by
  rcases exec_next_cases h with ⟨c, -, rfl⟩ | ⟨hi, -, -⟩ | ⟨u, -, rfl⟩
  · simp at hrc
  · exact hi
  · simp [rcCode] at hrc

/-- A word that is no command raises IllegalCommand, with CMD stored (R189). -/
theorem runCommand_of_illegal {w : Word} (hw : ∀ i, decode w ≠ .ok i) (s : State) :
    runCommand w s = .next (State.enterFault { s with cmd := w } .illegalCommand) := by
  rcases runCommand_cases w s with ⟨e, -, hr⟩ | ⟨i, hd, -⟩
  · exact hr
  · exact absurd hd (hw i)

end Sys2Proof.Machine

/-! The statements of 60_exceptions.md. -/

namespace Sys2Proof.Machine

/-- Settles O19: the three ways of `exec_next_cases`, each with its result code. -/
theorem commandEndsInOneOfThreeWays : Obligations.CommandEndsInOneOfThreeWays := by
  intro i s t h
  rcases exec_next_cases h with ⟨c, -, rfl⟩ | ⟨hi, hl, rfl⟩ | ⟨u, hu, rfl⟩
  · exact .inr (.inr ⟨s.enterFault_rc c, c, rfl⟩)
  · exact .inr (.inl ⟨s.withRc_rc _, hi, hl, rfl⟩)
  · exact .inl ⟨u.withRc_rc _, (u.withRc_faulted _).trans hu.faulted_eq, (u.withRc_cause _).trans hu.cause_eq⟩

/-- Settles O20: a command raises only its own causes (`exec_raises_causesOf`), and each row has a state in which it
arises (`exists_exec_raises`); a BUILD of no elements with A2 = 1 ends with RC = 1. -/
theorem failureTable : Obligations.FailureTable := by
  refine ⟨fun i c => ⟨?_, fun h => ?_⟩, fun i => ⟨?_, ?_⟩, fun s w hw => runCommand_of_illegal hw s⟩
  · rintro ⟨s, t, hs, h, ht, hcause⟩
    obtain ⟨d, hd, rfl⟩ := exec_raises_causesOf h hs ht
    obtain rfl : d = c := causeCode_injective hcause
    exact (mem_faultTable_iff i d).2 hd
  · obtain ⟨s, hs, hexec⟩ := exists_exec_raises h
    exact ⟨s, _, hs, hexec, s.enterFault_faulted c, rfl⟩
  · rintro ⟨s, t, h, hrc⟩
    exact eq_build_of_exec_rc_one h hrc
  · rintro rfl
    exact ⟨{ State.reset with a2 := 1#32 }, _, exec_build_of_ne (by decide), State.withRc_rc _ _⟩

end Sys2Proof.Machine

/-! SUPPORT. What a command and a write to an argument register leave in SRC (20_memory.md R62, 42_layout_access.md
R175). -/

namespace Sys2Proof.Machine

@[simp] theorem portStore_srcElem (s : State) (n : RegNum) (v : Word) (k : Nat) :
    (portStore s n v).srcElem k = s.srcElem k := by
  rcases portStore_cases s n v with he | he | he | he <;> rw [he] <;> rfl

/-- A command leaves every element of SRC as it was, or it is a PUT and writes A1 at index A0. -/
theorem srcElem_of_exec {i : Instr} {s t : State} (h : exec i s = .next t) (k : Nat) :
    t.srcElem k = s.srcElem k ∨ (i = .put ∧ k = s.a0.toNat ∧ t.srcElem k = s.a1) := by
  rcases exec_next_cases h with ⟨c, -, rfl⟩ | ⟨-, -, rfl⟩ | ⟨u, hu, rfl⟩
  · exact .inl (s.enterFault_srcElem c k)
  · exact .inl (s.withRc_srcElem _ k)
  · rw [State.withRc_srcElem]
    rcases hu.cases_by_writes with ⟨-, rfl⟩ | ⟨hput, rfl⟩ | ⟨r0, r1, r2, rfl, -⟩
    · exact .inl rfl
    · rw [State.srcElem_write]
      by_cases hk : k = s.arg0
      · exact .inr ⟨hput, hk, if_pos hk⟩
      · exact .inl (if_neg hk)
    · exact .inl rfl

end Sys2Proof.Machine

/-! The statement of 70_reset_and_hazards.md. -/

namespace Sys2Proof.Machine

/-- Settles O24: of the ways a step can end, only a command run can write SRC, and of the commands only PUT does
(`srcElem_of_exec`). -/
theorem sourceElementsStayUntilPut : Obligations.SourceElementsStayUntilPut := by
  intro s t h hreset k
  rcases step_next_cases h with ⟨-, rfl⟩ | ⟨e, rest, hi, hcase⟩
  · exact .inl rfl
  · rcases hcase with ⟨rfl, -⟩ | ⟨n, rfl⟩ | ⟨-, -, rfl⟩ | ⟨-, -, n, v, -, rfl⟩ | ⟨hf, w, hw, hcmd⟩
    · exact absurd (by simp [hi]) hreset
    · exact .inl rfl
    · exact .inl rfl
    · exact .inl (portStore_srcElem _ n v k)
    · rcases hcmd with ⟨-, rfl⟩ | ⟨i, hd, hexec⟩
      · exact .inl (State.enterFault_srcElem _ _ k)
      · rcases srcElem_of_exec hexec k with hsame | ⟨rfl, hk, hval⟩
        · exact .inl hsame
        · have hword : w = 0x00000020#32 := (decode_eq_ok_iff w .put).1 hd
          exact .inr ⟨hf, by simp [hi, hw, hword], hk, hval⟩

end Sys2Proof.Machine
